-- ==== Sys2Proof/Word.lean ====
section
/-! DEFINITION. The block's two widths (spec/00_scope.md R7). -/

namespace Sys2Proof

/-- An 8-bit value: a register, an opcode, an operand or one element of the image (R7). -/
abbrev Byte := BitVec 8

/-- A 16-bit index into the program image, as the program counter holds it (R7, R27). -/
abbrev Index := BitVec 16

end Sys2Proof
end

