-- ==== Sys2Proof/Syntax.lean ====
section
/-! DEFINITION. The four instructions, the decoder's descriptor and the assembler notation
(spec/30_encoding.md R53 to R66). -/

namespace Sys2Proof

/-- One constructor per row of the opcode table (R58). Undefined bytes are no instructions (R60). -/
inductive Instr where
  /-- 0xA9, Load-Accumulator-Immediate, with its operand byte (R55, R56). -/
  | ldaImm (imm8 : Byte)
  /-- 0xAA, Transfer-Accumulator-to-Index. -/
  | tax
  /-- 0xE8, Increment-Index. -/
  | inx
  /-- 0x00, Halt. -/
  | halt
  deriving DecidableEq, Repr

/-- The class the decoder gives an opcode byte (R57). -/
inductive OpClass where
  | ldaImm
  | tax
  | inx
  | halt
  | undefined
  deriving DecidableEq, Repr

/-- The two general registers (R20). -/
inductive Reg where
  | a
  | x
  deriving DecidableEq, Repr

/-- The descriptor's column "ends run" (R66). -/
inductive RunEnd where
  | no
  | halted
  | faulted
  deriving DecidableEq, Repr

/-- The handler descriptor, field by field as R66 lists it. -/
structure Descriptor where
  cls : OpClass
  operandLen : Nat
  destination : Option Reg
  flagSource : Option Reg
  endsRun : RunEnd
  deriving DecidableEq, Repr

/-- Why bytes are not an instruction. -/
inductive DecodeError where
  /-- There is no opcode byte. -/
  | noBytes
  /-- The opcode is one of the 252 undefined values (R60). -/
  | undefinedOpcode (op : Byte)
  /-- The opcode needs an operand byte and none follows (R55). -/
  | missingOperand (op : Byte)
  deriving DecidableEq, Repr

/-- The decoder's answer on a byte sequence: an instruction and the bytes after it, or a rejection by name. -/
inductive Decoded where
  | instr (i : Instr) (rest : List Byte)
  | rejected (e : DecodeError)
  deriving DecidableEq, Repr

/-- What a line of assembler text stands for (R64). The two spellings of the operand, `LDA #$hh` and `LDA #n`, are two
constructors; `bytes` is the directive `.byte`, with at least one byte. -/
inductive AsmStatement where
  | instr (i : Instr)
  | ldaDecimal (n : Byte)
  | bytes (first : Byte) (more : List Byte)
  deriving DecidableEq, Repr

/-- One line: an optional label, an optional statement, an optional comment (R64). -/
structure AsmLine where
  label : Option String
  statement : Option AsmStatement
  comment : Option String
  deriving DecidableEq, Repr

end Sys2Proof
end

