-- ==== Sys2Proof/WellFormed.lean ====
section
/-! DEFINITION. Well-formed instructions. The only operand is `imm8`, and its type already admits exactly the values the
encoding admits (spec/30_encoding.md R55, R56), so no instruction of the type is ill-formed. -/

namespace Sys2Proof

/-- Every operand has a value its encoding can hold. There is nothing to refuse: one arm per constructor, so that a new
instruction cannot slip past. -/
def Instr.wellFormed : Instr → Bool
  | .ldaImm _ => true
  | .tax => true
  | .inx => true
  | .halt => true

end Sys2Proof
end

