-- ==== Sys2Proof/Decode.lean ====
section
/-! DEFINITION. The decoder, the encoder and the assembler's layout (spec/30_encoding.md R53 to R66). -/

namespace Sys2Proof

/-- The 256-entry table: all 8 bits are compared, in every state (R57, R58, R62, R66). -/
def describe (op : Byte) : Descriptor :=
  if op = 0xA9#8 then ⟨.ldaImm, 1, some .a, some .a, .no⟩
  else if op = 0xAA#8 then ⟨.tax, 0, some .x, some .x, .no⟩
  else if op = 0xE8#8 then ⟨.inx, 0, some .x, some .x, .no⟩
  else if op = 0x00#8 then ⟨.halt, 0, none, none, .halted⟩
  else ⟨.undefined, 0, none, none, .faulted⟩

/-- An instruction's length in bytes, fixed by its opcode alone (R61). -/
def opcodeLength (op : Byte) : Nat := 1 + (describe op).operandLen

/-- The instruction at the head of a byte sequence. The opcode comes first, its operand next (R42, R53). -/
def decode : List Byte → Decoded
  | [] => .rejected .noBytes
  | op :: rest =>
    match (describe op).cls, rest with
    | .ldaImm, imm8 :: after => .instr (.ldaImm imm8) after
    | .ldaImm, [] => .rejected (.missingOperand op)
    | .tax, after => .instr .tax after
    | .inx, after => .instr .inx after
    | .halt, after => .instr .halt after
    | .undefined, _ => .rejected (.undefinedOpcode op)

/-- The bytes of an instruction, in increasing index order (R54, R55, R58). -/
def encode : Instr → List Byte
  | .ldaImm imm8 => [0xA9#8, imm8]
  | .tax => [0xAA#8]
  | .inx => [0xE8#8]
  | .halt => [0x00#8]

/-- The two bytes of a table word of `nbits` bits: bit 0 is the least significant bit of the first byte, and every bit at or
above `nbits` is 0. -/
def tableBytes (nbits w : Nat) : List Byte :=
  [BitVec.ofNat 8 (w % 2 ^ nbits), BitVec.ofNat 8 (w % 2 ^ nbits / 256)]

/-- The instruction the decoder reads from a table word. -/
def decodeTableWord (nbits w : Nat) : Option Instr :=
  match decode (tableBytes nbits w) with
  | .instr i _ => some i
  | .rejected _ => none

/-- The bytes one assembler statement places (R64, R65: no statement expands to a sequence of instructions). -/
def AsmStatement.place : AsmStatement → List Byte
  | .instr i => encode i
  | .ldaDecimal n => encode (.ldaImm n)
  | .bytes first more => first :: more

/-- The bytes one line places: a label or a comment places none (R64). -/
def AsmLine.place (l : AsmLine) : List Byte :=
  match l.statement with
  | none => []
  | some st => st.place

/-- A program's image: its lines' bytes from index 0 in source order (R64). -/
def assemble : List AsmLine → List Byte
  | [] => []
  | l :: ls => l.place ++ assemble ls

/-- One hexadecimal digit. -/
def hexDigit (n : Nat) : Char := if n < 10 then Char.ofNat (48 + n) else Char.ofNat (55 + n)

/-- A byte as `$hh` (R64). -/
def hexText (b : Byte) : String :=
  "$" ++ String.ofList [hexDigit (b.toNat / 16), hexDigit (b.toNat % 16)]

/-- The text of one statement (R64). -/
def AsmStatement.text : AsmStatement → String
  | .instr (.ldaImm imm8) => "LDA #" ++ hexText imm8
  | .instr .tax => "TAX"
  | .instr .inx => "INX"
  | .instr .halt => "HALT"
  | .ldaDecimal n => "LDA #" ++ toString n.toNat
  | .bytes first more => ".byte " ++ String.intercalate ", " ((first :: more).map hexText)

/-- The text of one line: `label:` first, then the statement, then `;` and the comment (R64). -/
def AsmLine.text (l : AsmLine) : String :=
  (match l.label with | none => "" | some n => n ++ ": ") ++
  (match l.statement with | none => "" | some st => st.text) ++
  (match l.comment with | none => "" | some c => " ; " ++ c)

end Sys2Proof
end

