-- ==== Sys2Proof/Config.lean ====
section
/-! DEFINITION. What is fixed for the machine. The spec leaves no width to the implementation (spec/00_scope.md R7) and no
result open (spec/93_implementation_defined.md part 1), so there is no free value here. -/

namespace Sys2Proof

/-- What an index below `PROG_LEN` that the image's cell list does not list reads as.
A convention of the representation only (DESIGN CHOICE, log entry 1, safe): the host gives every byte below `PROG_LEN`, and
every image has exactly one cell list. -/
def Config.unlistedByte : Byte := 0x00#8

end Sys2Proof
end

