-- ==== Sys2Proof/Machine/State.lean ====
section
/-! DEFINITION. The state of the block (spec/10_state.md R17 to R35) as plain data, the reasons a step can stop, and the
state after reset (spec/70_reset_and_hazards.md R112). -/

namespace Sys2Proof.Machine

/-- The engine state (R32). Its 2-bit code stands at the port only: `RunState.code`. -/
inductive RunState where
  /-- Reset; no run has started since. -/
  | idle
  /-- A run is in progress. -/
  | running
  /-- The last run ended with `HALT`. -/
  | halted
  /-- The last run ended with a fault, recorded in `State.fault`. -/
  | faulted
  deriving DecidableEq, Repr

/-- Which access a fetch or an advance belongs to (R33 `kind`, R39). -/
inductive Access where
  | opcode
  | operand
  deriving DecidableEq, Repr

/-- The fault record's code (R33, R90). -/
inductive FaultCode where
  | none
  | unknownOpcode
  | outOfRangeFetch
  | pcOverflow
  deriving DecidableEq, Repr

/-- The fault record (R33). -/
structure FaultRecord where
  code : FaultCode
  opcode : Byte
  addr : Index
  kind : Access
  deriving DecidableEq, Repr

/-- The record at reset and at the start of a run: code 0 with every field 0 (R33, R67). -/
def FaultRecord.clear : FaultRecord := ⟨.none, 0x00#8, 0x0000#16, .opcode⟩

/-- The program image (R8, R35, R38): its length in bytes and its bytes by index. It is an input of the run that no step
changes; the step takes the state alone, so the model holds it there (log entry 1). Canonical form: `Memory.wf`. -/
structure Memory where
  progLen : Nat
  cells : List Host.Cell
  deriving DecidableEq, Repr

/-- The empty image, `PROG_LEN = 0`. -/
def Memory.empty : Memory := ⟨0, []⟩

/-- The state: the four Processor State fields, the engine state and the fault record (R17), and the run's input image. -/
structure State where
  /-- Accumulator (R18). -/
  a : Byte
  /-- Index register (R19). -/
  x : Byte
  /-- Status byte, all 8 bits (R21, R26). -/
  p : Byte
  /-- Program counter (R27). -/
  pc : Index
  /-- Engine state (R32). -/
  runState : RunState
  /-- Fault record (R33). -/
  fault : FaultRecord
  /-- Program image (R8, R35). -/
  image : Memory
  deriving DecidableEq, Repr

/-- Reasons the model itself would stop: there are none. The block's own three faults are taken as next states, with the
record written and the engine `Faulted` (spec/60_exceptions.md R99), and R94 admits no other. -/
inductive Fault where
  deriving DecidableEq, Repr

/-- Why a step has no meaning. -/
inductive Refusal where
  /-- Raised only by an arm of `exec` whose instruction has no meaning yet (safe). No arm raises it now. -/
  | notModelled (mnemonic : String)
  deriving DecidableEq, Repr

/-- The state after reset, every field as R112's table gives it. The image is the host's input, not part of that table:
none is supplied yet, held as the empty image (DESIGN CHOICE, log entry 2, unsafe). -/
def State.reset : State where
  a := 0x00#8
  x := 0x00#8
  p := 0x00#8
  pc := 0x0000#16
  runState := .idle
  fault := FaultRecord.clear
  image := Memory.empty

end Sys2Proof.Machine
end

