-- ==== Sys2Proof/Machine/Ops.lean ====
section
/-! DEFINITION. The named operations: the image's bytes, one update per state field, a sub-step of an instruction, `Fetch`,
`Advance`, taking a fault, and starting a run. -/

namespace Sys2Proof.Machine

/-! ### The image -/

/-- The byte a cell list gives an index; an unlisted index reads as `Config.unlistedByte`. -/
def cellRead (i : Nat) : List Host.Cell → Byte
  | [] => Config.unlistedByte
  | (j, c) :: rest => if i = j then c else cellRead i rest

/-- A cell in front of a list, left out when it holds what an unlisted index reads as. -/
def cellCons (i : Nat) (b : Byte) (cs : List Host.Cell) : List Host.Cell :=
  if b = Config.unlistedByte then cs else (i, b) :: cs

/-- Put a byte into a rising cell list, keeping its canonical form. -/
def cellWrite (i : Nat) (b : Byte) : List Host.Cell → List Host.Cell
  | [] => cellCons i b []
  | (j, c) :: rest =>
    if i < j then cellCons i b ((j, c) :: rest)
    else if i = j then cellCons i b rest
    else (j, c) :: cellWrite i b rest

/-- The cells are strictly rising from `lo`, all below `hi`, and none holds the unlisted byte. -/
def cellsWf (lo hi : Nat) : List Host.Cell → Bool
  | [] => true
  | (i, b) :: rest => decide (lo ≤ i) && decide (i < hi) && decide (b ≠ Config.unlistedByte) && cellsWf (i + 1) hi rest

/-- The cells of consecutive bytes from an index on. -/
def cellsOf (i : Nat) : List Byte → List Host.Cell
  | [] => []
  | b :: bs => cellCons i b (cellsOf (i + 1) bs)

/-- The canonical form of an image: rising indices, each below `PROG_LEN`, no listed byte equal to the unlisted one. -/
def Memory.wf (m : Memory) : Bool := cellsWf 0 m.progLen m.cells

/-- The byte at an index (`prog[i]`, R8). Meaningful below `PROG_LEN` only; `fetch` asks first. -/
def Memory.read (m : Memory) (i : Nat) : Byte := cellRead i m.cells

/-- The image with one byte placed, its length grown to take the index in. No instruction does this (R44): only the host's
side of the model. -/
def Memory.place (m : Memory) (i : Nat) (b : Byte) : Memory :=
  ⟨if m.progLen ≤ i then i + 1 else m.progLen, cellWrite i b m.cells⟩

/-- The image made of an ordered sequence of bytes (R8, R36). -/
def Memory.ofBytes (bs : List Byte) : Memory := ⟨bs.length, cellsOf 0 bs⟩

/-- At most `n` bytes of the image from an index on, as far as the image goes. -/
def Memory.bytesFrom (m : Memory) (i : Nat) : Nat → List Byte
  | 0 => []
  | n + 1 => if i < m.progLen then m.read i :: m.bytesFrom (i + 1) n else []

/-! ### One update per field -/

def State.setA (s : State) (v : Byte) : State := { s with a := v }
def State.setX (s : State) (v : Byte) : State := { s with x := v }
def State.setP (s : State) (v : Byte) : State := { s with p := v }
def State.setPc (s : State) (v : Index) : State := { s with pc := v }
def State.setRunState (s : State) (r : RunState) : State := { s with runState := r }
def State.setFault (s : State) (f : FaultRecord) : State := { s with fault := f }
def State.setImage (s : State) (m : Memory) : State := { s with image := m }

/-! ### Taking a fault (spec/60_exceptions.md R90 to R100) -/

/-- The three causes of a fault, each with the information it records (R90). -/
inductive Cause where
  | unknownOpcode (opcode : Byte) (addr : Index)
  | outOfRangeFetch (addr : Index) (kind : Access)
  | pcOverflow (kind : Access)
  deriving DecidableEq, Repr

/-- The record a cause leaves (R33, R91 to R93). -/
def Cause.record : Cause → FaultRecord
  | .unknownOpcode op addr => ⟨.unknownOpcode, op, addr, .opcode⟩
  | .outOfRangeFetch addr kind => ⟨.outOfRangeFetch, 0x00#8, addr, kind⟩
  | .pcOverflow kind => ⟨.pcOverflow, 0x00#8, 0xFFFF#16, kind⟩

/-- `raise F(info)` (R99): the record is written and the engine is `Faulted`. Nothing is saved, no vector is taken, and `PC`
keeps the advances made so far (R100). -/
def raise (c : Cause) (s : State) : State := (s.setFault c.record).setRunState .faulted

/-- `run()` (spec/40_engine.md R67): the one way on after a fault or a halt besides reset (R101). `A`, `X`, `P` are kept. -/
def startRun (s : State) : State :=
  ((s.setPc 0x0000#16).setFault FaultRecord.clear).setRunState .running

/-- `run_req` as the block takes it: refused, with no effect, while `Running` (R67). -/
def runReq (s : State) : State := if s.runState = .running then s else startRun s

/-! ### Sub-steps -/

/-- A sub-step of an instruction: it is done with a value, or it raised and the step ends there in the state given (R99). -/
inductive SubStep (α : Type) where
  | done (v : α) (s : State)
  | raised (s : State)
  deriving DecidableEq, Repr

/-- One sub-step after another; nothing after a raise takes effect (spec/00_scope.md R12). -/
def SubStep.andThen {α β : Type} (r : SubStep α) (f : α → State → SubStep β) : SubStep β :=
  match r with
  | .done v s => f v s
  | .raised s => .raised s

/-- `Fetch(addr, kind)` (spec/20_memory.md R39): the only memory access. It writes no state. -/
def fetch (addr : Index) (kind : Access) (s : State) : SubStep Byte :=
  if s.image.progLen ≤ addr.toNat then .raised (raise (.outOfRangeFetch addr kind) s)
  else .done (s.image.read addr.toNat) s

/-- `Advance(kind)` (spec/40_engine.md R71): `PC` never wraps. -/
def advance (kind : Access) (s : State) : SubStep Unit :=
  if s.pc = 0xFFFF#16 then .raised (raise (.pcOverflow kind) s)
  else .done () (s.setPc (s.pc + 1#16))

end Sys2Proof.Machine
end

