-- ==== Sys2Proof/Machine/Control.lean ====
section
/-! DEFINITION. Halt and undefined opcodes (spec/43_control.md). -/

namespace Sys2Proof.Machine

/-- `HALT` (R86): the run ends; `PC` stays where the loop's advance left it. -/
def execHalt (s : State) : Host.Outcome State Fault Refusal := .next (s.setRunState .halted)

/-- The dispatch of an undefined opcode (R87): `UnknownOpcode` with the byte and the index it was fetched from. -/
def raiseUndefined (op : Byte) (a : Index) (s : State) : State := raise (.unknownOpcode op a) s

end Sys2Proof.Machine
end

