-- ==== Sys2Proof/Machine/Flags.lean ====
section
/-! DEFINITION. The flag-update unit and the views of the status byte (spec/40_engine.md R76 to R79, spec/10_state.md R21). -/

namespace Sys2Proof.Machine

/-- `Z`, bit 1 of a status byte (R22). -/
def zeroFlag (p : Byte) : Bool := p.getLsbD 1

/-- `N`, bit 7 of a status byte (R23). -/
def negativeFlag (p : Byte) : Bool := p.getLsbD 7

/-- The bits of `P` no instruction writes: 0 and 2 to 6 (R24). -/
def reservedBits (p : Byte) : Byte := p &&& 0x7D#8

/-- `FlagsNZ(p, r)` (R76): the old status byte with `Z` and `N` recomputed from a result. -/
def flagsNZ (p r : Byte) : Byte :=
  let z : Byte := if r = 0x00#8 then 1#8 else 0#8
  let n : Byte := if r.getLsbD 7 then 1#8 else 0#8
  (p &&& 0x7D#8) ||| (z <<< 1) ||| (n <<< 7)

/-- "Observe result": both flags from one result, in one update (R77). -/
def State.observe (s : State) (r : Byte) : State := s.setP (flagsNZ s.p r)

end Sys2Proof.Machine
end

