-- ==== Sys2Proof/Machine/Increment.lean ====
section
/-! DEFINITION. The increment instruction (spec/42_increment.md). -/

namespace Sys2Proof.Machine

/-- `INX` (R85): addition modulo 256, with no carry. -/
def execInx (s : State) : Host.Outcome State Fault Refusal :=
  let incremented := s.setX (s.x + 1#8)
  .next (incremented.observe incremented.x)

end Sys2Proof.Machine
end

