-- ==== Sys2Proof/Machine/LoadTransfer.lean ====
section
/-! DEFINITION. Load and transfer instructions (spec/41_load_transfer.md). Each meaning starts where the rule's pseudocode
does: the opcode is fetched and `PC` is one past it (log entry 9). -/

namespace Sys2Proof.Machine

/-- `LDA #imm` (R83). `imm8` is the byte its operand fetch gave (`fetchImmediate`, which raises `OutOfRangeFetch` where the
image ends); the operand's advance is here and may raise `PcOverflow`, which leaves `A` and `P` as they were (R73). -/
def execLdaImm (imm8 : Byte) (s : State) : Host.Outcome State Fault Refusal :=
  match advance .operand s with
  | .raised t => .next t
  | .done _ t =>
    let loaded := t.setA imm8
    .next (loaded.observe loaded.a)

/-- `TAX` (R84). -/
def execTax (s : State) : Host.Outcome State Fault Refusal :=
  let copied := s.setX s.a
  .next (copied.observe copied.x)

end Sys2Proof.Machine
end

