-- ==== Sys2Proof/Machine/Operands.lean ====
section
/-! DEFINITION. The operand forms: implied (no operand byte) and immediate (one), spec/30_encoding.md R53 to R56. -/

namespace Sys2Proof.Machine

/-- The immediate form's operand: a fetch at the advanced `PC` (R56, R63; spec/40_engine.md R73). -/
def fetchImmediate (s : State) : SubStep Byte := fetch s.pc .operand s

/-- The operand bytes of an instruction by its descriptor's operand length: none, or one (R53, R61). Their `Advance` is the
handler's (spec/41_load_transfer.md R83). -/
def fetchOperands (operandLen : Nat) (s : State) : SubStep (List Byte) :=
  if operandLen = 0 then .done [] s
  else (fetchImmediate s).andThen fun v t => .done [v] t

end Sys2Proof.Machine
end

