-- ==== Sys2Proof/Machine/Engine.lean ====
section
/-! DEFINITION. The engine: fetch, advance, decode, operand fetch, dispatch (spec/40_engine.md R67 to R75), in the order that
spec/60_exceptions.md R97 gives the checks. -/

namespace Sys2Proof.Machine

/-- The part of a step before its handler: the opcode fetch and its advance, then the decode, then the operand fetch (R69).
An undefined opcode needs no operand, so it raises before any operand fetch (spec/30_encoding.md R61, R63). -/
def fetchInstr (s : State) : SubStep Instr :=
  (fetch s.pc .opcode s).andThen fun op fetched =>
  (advance .opcode fetched).andThen fun _ advanced =>
  (fetchOperands (describe op).operandLen advanced).andThen fun operands ready =>
  match decode (op :: operands) with
  | .instr i _ => .done i ready
  | .rejected _ => .raised (raiseUndefined op s.pc ready)

/-- One whole instruction (R69). -/
def runInstr (s : State) : Host.Outcome State Fault Refusal :=
  match fetchInstr s with
  | .done i t => exec i t
  | .raised t => .next t

/-- A step is taken only while `Running`; in every other engine state nothing changes (R68, R109; log entry 4). -/
def engineStep (s : State) : Host.Outcome State Fault Refusal :=
  match s.runState with
  | .running => runInstr s
  | .idle => .next s
  | .halted => .next s
  | .faulted => .next s

/-- The bytes the next step could fetch: at most two from `PC` on, as far as the image goes. -/
def State.codeBytes (s : State) : List Byte := s.image.bytesFrom s.pc.toNat 2

/-- A byte sequence placed in an image from an index on. -/
def Memory.placeAll (m : Memory) (i : Nat) : List Byte → Memory
  | [] => m
  | b :: bs => (m.place i b).placeAll (i + 1) bs

/-- The table word's bytes in the image where the next step fetches, with a run started if none is in progress: the host's
load and its `run_req` (log entry 8). -/
def State.placeWord (s : State) (nbits w : Nat) : State :=
  let started := runReq s
  started.setImage (started.image.placeAll started.pc.toNat (tableBytes nbits w))

end Sys2Proof.Machine
end

