-- ==== Sys2Proof/Machine/Step.lean ====
section
/-! DEFINITION. The step and the host's placement of an instruction; both only call `Machine/Engine.lean`. -/

namespace Sys2Proof.Machine

/-- One step of the block (spec/40_engine.md R68, R69). -/
def step (s : State) : Host.Outcome State Fault Refusal := engineStep s

/-- `s` with a table word where the next step fetches, ready to run it. -/
def State.withFetchWord (s : State) (nbits w : Nat) : State := s.placeWord nbits w

end Sys2Proof.Machine
end

