-- ==== Sys2Proof/Machine/HostPort.lean ====
section
/-! DEFINITION. The block's interface and what the host can do (spec/10_state.md R34, R36; spec/60_exceptions.md R110, R111). -/

namespace Sys2Proof.Machine

/-! ### Port encodings (R32, R33) -/

def RunState.code : RunState → BitVec 2
  | .idle => 0b00
  | .running => 0b01
  | .halted => 0b10
  | .faulted => 0b11

def FaultCode.code : FaultCode → BitVec 2
  | .none => 0
  | .unknownOpcode => 1
  | .outOfRangeFetch => 2
  | .pcOverflow => 3

def Access.code : Access → BitVec 1
  | .opcode => 0
  | .operand => 1

/-! ### Ports (R36) -/

/-- The output signals. -/
structure Outputs where
  imgAddr : BitVec 16
  aOut : BitVec 8
  xOut : BitVec 8
  pOut : BitVec 8
  pcOut : BitVec 16
  runStateOut : BitVec 2
  faultCode : BitVec 2
  faultOpcode : BitVec 8
  faultAddr : BitVec 16
  faultKind : BitVec 1
  deriving DecidableEq, Repr

/-- The outputs of a state at a step boundary (R36, R108). R36 gives `img_addr` only at a fetch, where it equals `PC`; that it
carries `PC` while no fetch is in progress too (`Idle`, `Halted`, `Faulted`) is the model's own choice (DESIGN CHOICE, log
entry 15, unsafe). -/
def State.outputs (s : State) : Outputs where
  imgAddr := s.pc
  aOut := s.a
  xOut := s.x
  pOut := s.p
  pcOut := s.pc
  runStateOut := s.runState.code
  faultCode := s.fault.code.code
  faultOpcode := s.fault.opcode
  faultAddr := s.fault.addr
  faultKind := s.fault.kind.code

/-- The input `img_in_range` at an `img_addr`. -/
def State.imgInRange (s : State) (addr : Index) : Bool := decide (addr.toNat < s.image.progLen)

/-- The input `img_data` at an `img_addr`: `prog[img_addr]`, ignored unless `img_in_range`. -/
def State.imgData (s : State) (addr : Index) : Byte := s.image.read addr.toNat

/-! ### The host's interactions (R110) -/

/-- The rows of R110's table, and the write of `PC`. A register write has one enable per register and one data byte (R36).
R36 also says that the host may write `PC` between runs, with no signal for it; that write is an interaction of its own, and it
is taken when a write of another register is (DEDUCED, log entry 16). -/
inductive HostMove where
  | read
  | write (wrA wrX wrP : Bool) (wdata : Byte)
  | writePc (index : Index)
  | supplyImage (bytes : List Byte)
  | runReq
  | rst
  | cancel
  deriving DecidableEq, Repr

/-- Whether an interaction has its effect in an engine state (R110): none has while `Running`, and a run cannot be cancelled. -/
def HostMove.allowed (m : HostMove) (r : RunState) : Bool :=
  match m, r with
  | _, .running => false
  | .cancel, _ => false
  | _, _ => true

/-- `rst` (spec/70_reset_and_hazards.md R112): every state field at its reset value. The image is no state field and stays
(DEDUCED, log entry 3). -/
def rstEffect (s : State) : State := State.reset.setImage s.image

/-- The host's register writes: each enabled register takes `host_wdata`, all 8 bits of `P` included (R24, R36). -/
def hostWrite (wrA wrX wrP : Bool) (wdata : Byte) (s : State) : State :=
  let s := if wrA then s.setA wdata else s
  let s := if wrX then s.setX wdata else s
  if wrP then s.setP wdata else s

/-- The interaction that writes `PC` alone (R36). `run_req` and `rst` set it too, to 0. -/
def HostMove.isPcWrite : HostMove → Bool
  | .writePc _ => true
  | .read => false
  | .write _ _ _ _ => false
  | .supplyImage _ => false
  | .runReq => false
  | .rst => false
  | .cancel => false

/-- What an interaction that is taken does. -/
def HostMove.effect (m : HostMove) (s : State) : State :=
  match m with
  | .read => s
  | .write wrA wrX wrP wdata => hostWrite wrA wrX wrP wdata s
  | .writePc index => s.setPc index
  | .supplyImage bytes => s.setImage (Memory.ofBytes bytes)
  | .runReq => Sys2Proof.Machine.runReq s
  | .rst => rstEffect s
  | .cancel => s

/-- An interaction in a state: its effect where it is taken, nothing where it is refused. -/
def hostMove (m : HostMove) (s : State) : State := if m.allowed s.runState then m.effect s else s

/-- What the host reads: everything, whenever no run is in progress (R34, R110). R110's row does not list `img_addr`; that it is
returned with the rest, and its value then, is the model's own choice (DESIGN CHOICE, log entry 15, unsafe). -/
def hostRead (s : State) : Option Outputs := if HostMove.read.allowed s.runState then some s.outputs else none

/-! ### The step's result (spec/40_engine.md R82) -/

/-- The three results of a step. -/
inductive StepResult where
  | cont
  | halt
  | fault (reason : FaultRecord)
  deriving DecidableEq, Repr

/-- The result a state after a step stands for: `Running` is Continue, `Halted` is Halt, `Faulted` is Fault with its reason;
`Idle` is before any step. -/
def State.result (s : State) : Option StepResult :=
  match s.runState with
  | .idle => none
  | .running => some .cont
  | .halted => some .halt
  | .faulted => some (.fault s.fault)

end Sys2Proof.Machine
end

