-- ==== Sys2Proof/Safety.lean ====
section
/-! DEFINITION. What counts as a good run, the machine's invariant, the moves of block and host, and the tables of the spec
in the terms the statements use. -/

namespace Sys2Proof.Machine

/-- A run has ended (spec/40_engine.md R81). -/
abbrev State.runEnded (s : State) : Prop := s.runState = .halted ∨ s.runState = .faulted

/-- A run has ended well: a `Faulted` end is never a good end (R81). -/
abbrev State.endedWell (s : State) : Prop := s.runState = .halted

/-- The step is enabled (R68). -/
abbrev State.stepEnabled (s : State) : Prop := s.runState = .running

/-- The shape R33 gives each code's record. -/
def FaultRecord.wf (f : FaultRecord) : Bool :=
  match f.code with
  | .none => decide (f = FaultRecord.clear)
  | .unknownOpcode => decide (f.kind = .opcode)
  | .outOfRangeFetch => decide (f.opcode = 0x00#8)
  | .pcOverflow => decide (f.opcode = 0x00#8) && decide (f.addr = 0xFFFF#16)

/-- Where R100 leaves `PC` for the fault recorded. `UnknownOpcode` comes after an advance, so its index is never 0xFFFF. -/
def faultPcOk (f : FaultRecord) (pc : Index) : Bool :=
  match f.code with
  | .none => true
  | .unknownOpcode => decide (f.addr ≠ 0xFFFF#16) && decide (pc = f.addr + 1#16)
  | .outOfRangeFetch => decide (pc = f.addr)
  | .pcOverflow => decide (pc = 0xFFFF#16)

/-- The machine's invariant: the image is canonical, the fault record has a shape R33 gives, and a fault is recorded exactly in
`Faulted`. -/
abbrev State.Inv (s : State) : Prop :=
  s.image.wf = true ∧ s.fault.wf = true ∧ (s.runState = .faulted ↔ s.fault.code ≠ .none)

/-- `PC` where the block left it: where the recorded fault leaves it (R100), and 0 while `Idle` (R112). A write of `PC` by the
host between runs (R36) may break it; nothing else does, and a step restores it. -/
abbrev State.PcInv (s : State) : Prop :=
  faultPcOk s.fault s.pc = true ∧ (s.runState = .idle → s.pc = 0x0000#16)

/-- One move of the whole system: a step of the block while it is enabled, or a taken interaction of the host among those `ok`
admits. -/
inductive Move (ok : HostMove → Bool) : State → State → Prop where
  | block (s t : State) : s.stepEnabled → step s = .next t → Move ok s t
  | host (m : HostMove) (s : State) : ok m = true → m.allowed s.runState = true → Move ok s (m.effect s)

/-- What the system can reach from reset by such moves. -/
inductive Reachable (ok : HostMove → Bool) : State → Prop where
  | reset : Reachable ok State.reset
  | move (s t : State) : Reachable ok s → Move ok s t → Reachable ok t

/-- `q` is `p` with `Z` and `N` recomputed from `r` and every other bit kept, bit by bit (R22 to R24, R76 to R78). -/
abbrev FlagsFrom (p q r : Byte) : Prop :=
  zeroFlag q = decide (r = 0x00#8) ∧ negativeFlag q = r.getLsbD 7 ∧
    ∀ b : Fin 8, b.val ≠ 1 → b.val ≠ 7 → q.getLsbD b.val = p.getLsbD b.val

/-- `Z` and `N` stand as a result `v` sets them (R25). -/
abbrev FlagsReflect (p v : Byte) : Prop := zeroFlag p = decide (v = 0x00#8) ∧ negativeFlag p = v.getLsbD 7

/-- The same image: as data, in length, and byte by byte. -/
def ImageKept (s t : State) : Prop :=
  t.image = s.image ∧ t.image.progLen = s.image.progLen ∧ ∀ i : Nat, t.image.read i = s.image.read i

/-- The block is `Running` with opcode `op` at `PC`, inside the image and before the counter's limit: the opcode-fetch faults
do not apply. -/
abbrev State.atOpcode (s : State) (op : Byte) : Prop :=
  s.runState = .running ∧ s.pc.toNat < s.image.progLen ∧ s.image.read s.pc.toNat = op ∧ s.pc ≠ 0xFFFF#16

/-- The fault a step of a `Running` block raises, by R97's table read from top to bottom, with `a` the opcode's index. -/
def faultOfStep (s : State) : Option Cause :=
  let a := s.pc.toNat
  let op := s.image.read a
  if a ≥ s.image.progLen then some (.outOfRangeFetch s.pc .opcode)
  else if a = 65535 then some (.pcOverflow .opcode)
  else if op ≠ 0xA9#8 ∧ op ≠ 0xAA#8 ∧ op ≠ 0xE8#8 ∧ op ≠ 0x00#8 then some (.unknownOpcode op s.pc)
  else if op = 0xA9#8 ∧ a + 1 ≥ s.image.progLen then some (.outOfRangeFetch (s.pc + 1#16) .operand)
  else if op = 0xA9#8 ∧ a + 1 = 65535 then some (.pcOverflow .operand)
  else none

/-- `PC` after a fault, by R100's table, from the opcode's index. -/
def pcAfterFault (c : Cause) (a : Index) : Index :=
  match c with
  | .outOfRangeFetch _ .opcode => a
  | .pcOverflow .opcode => a
  | .unknownOpcode _ _ => a + 1#16
  | .outOfRangeFetch _ .operand => a + 1#16
  | .pcOverflow .operand => a + 1#16

/-- The value a completed flag-updating step wrote to its destination register; none for any other step (R25, R79). -/
def resultOfStep (s : State) : Option Byte :=
  let op := s.image.read s.pc.toNat
  if faultOfStep s ≠ none then none
  else if op = 0xA9#8 then some (s.image.read (s.pc.toNat + 1))
  else if op = 0xAA#8 then some s.a
  else if op = 0xE8#8 then some (s.x + 1#8)
  else none

/-- A general register by its name in the descriptor (R66). -/
def State.reg (s : State) : Reg → Byte
  | .a => s.a
  | .x => s.x

/-- One instruction's effect several times in a row. -/
def execRepeat (i : Instr) : Nat → State → Host.Outcome State Fault Refusal
  | 0, s => .next s
  | n + 1, s =>
    match exec i s with
    | .next t => execRepeat i n t
    | .fault r => .fault r
    | .refused r => .refused r

end Sys2Proof.Machine
end

