-- ==== Sys2Proof/Certificates/Slice0/Obligations.lean ====
section
/-! DEFINITION. The statements for the provers. Each says which rule of the spec it formalises; a clause that rests on a
decision of the spec (92_eei_decisions.md) or of the model (the assumption log) says so. -/

open Sys2Proof Sys2Proof.Machine

/-! ### The flag-update unit -/

/-- R76: the masked formula, and what it means bit by bit. -/
def Obligations.FlagsUnitIsTheMaskedFormula : Prop :=
  ∀ p r : Byte,
    flagsNZ p r = ((p &&& 0x7D#8) ||| ((if r = 0x00#8 then 1#8 else 0#8) <<< 1) ||| ((r >>> 7) <<< 7)) ∧
      FlagsFrom p (flagsNZ p r) r

/-- R78: the six reserved bits pass through, whatever the old byte; the new `Z` and `N` do not depend on it; and (R77) the two
are never both 1. -/
def Obligations.FlagsUnitPassesReservedBits : Prop :=
  ∀ p q r : Byte,
    reservedBits (flagsNZ p r) = reservedBits p ∧
      zeroFlag (flagsNZ p r) = zeroFlag (flagsNZ q r) ∧ negativeFlag (flagsNZ p r) = negativeFlag (flagsNZ q r) ∧
      ¬(zeroFlag (flagsNZ p r) = true ∧ negativeFlag (flagsNZ p r) = true)

/-! ### Decoding -/

/-- Decode and encode agree in both directions: bytes decode to an instruction exactly when they begin with its encoding. -/
def Obligations.DecodeExactlyEncodings : Prop :=
  ∀ (bytes : List Byte) (i : Instr) (rest : List Byte), decode bytes = .instr i rest ↔ bytes = encode i ++ rest

/-- R58: the table's four bit patterns, written out, decode to their instructions. -/
def Obligations.TablePatternsDecode : Prop :=
  decode [0b10101001#8, 0b00000101#8] = .instr (.ldaImm 0x05#8) [] ∧ decode [0b10101010#8] = .instr .tax [] ∧
    decode [0b11101000#8] = .instr .inx [] ∧ decode [0b00000000#8] = .instr .halt [] ∧
    decode [0b10101001#8, 0b00000000#8, 0b10101010#8] = .instr (.ldaImm 0x00#8) [0xAA#8]

/-- R60: exactly the 252 values in the three ranges are undefined, the decoder rejects each by name, and dispatching one
raises `UnknownOpcode` (what the record and `PC` then hold: `UndefinedOpcodeStep`). -/
def Obligations.UndefinedValuesAreTheThreeRanges : Prop :=
  (∀ op : Byte, (describe op).cls = .undefined ↔
      (0x01 ≤ op.toNat ∧ op.toNat ≤ 0xA8) ∨ (0xAB ≤ op.toNat ∧ op.toNat ≤ 0xE7) ∨ (0xE9 ≤ op.toNat ∧ op.toNat ≤ 0xFF)) ∧
    ((List.range 256).filter fun n => decide ((describe (BitVec.ofNat 8 n)).cls = .undefined)).length = 252 ∧
    (∀ (op : Byte) (rest : List Byte), (describe op).cls = .undefined → decode (op :: rest) = .rejected (.undefinedOpcode op)) ∧
    ∀ (s : State) (op : Byte), (describe op).cls = .undefined → s.atOpcode op →
      ∃ t, step s = .next t ∧ t.runState = .faulted ∧ t.fault.code = .unknownOpcode

/-- R61: the opcode alone fixes the length. -/
def Obligations.OpcodeFixesLength : Prop :=
  ∀ op : Byte, opcodeLength op = 1 + (describe op).operandLen ∧ opcodeLength op = (if op = 0xA9#8 then 2 else 1)

/-- R64 (the notation is the spec's own, D10): statements place their bytes in source order, so the first instruction of
assembled text decodes first; the two spellings of an operand place the same bytes; labels and comments place none. -/
def Obligations.AssemblyPlacesBytesInOrder : Prop :=
  (∀ (i : Instr) (l c : Option String) (ls : List AsmLine),
      decode (assemble (⟨l, some (.instr i), c⟩ :: ls)) = .instr i (assemble ls)) ∧
    (∀ n : Byte, AsmStatement.place (.ldaDecimal n) = AsmStatement.place (.instr (.ldaImm n))) ∧
    (∀ (l c : Option String) (ls : List AsmLine), assemble (⟨l, none, c⟩ :: ls) = assemble ls) ∧
    ∀ (b : Byte) (bs : List Byte) (l c : Option String) (ls : List AsmLine),
      assemble (⟨l, some (.bytes b bs), c⟩ :: ls) = b :: bs ++ assemble ls

/-! ### The meanings: what each answers, and what it leaves alone -/

/-- R83 from dispatch on: below the counter's limit `LDA #imm` completes. Registers, flags, `PC`, and everything it keeps. That it
needs no premise on `PROG_LEN` is the model's choice (log entry 9): the operand is already fetched when the meaning starts, and
the `OutOfRangeFetch` R83 gives the handler is raised before it (`LdaImmStep`). -/
def Obligations.LdaImmCompletes : Prop :=
  ∀ (imm8 : Byte) (s : State), s.pc ≠ 0xFFFF#16 →
    ∃ t, exec (.ldaImm imm8) s = .next t ∧ t.a = imm8 ∧ FlagsFrom s.p t.p imm8 ∧ t.pc.toNat = s.pc.toNat + 1 ∧
      t.x = s.x ∧ t.runState = s.runState ∧ t.fault = s.fault ∧ ImageKept s t

/-- R83, R73, with the record and `PC` as D5, D7 and D8 decide: at the counter's limit the operand's advance raises
`PcOverflow`, and the instruction writes nothing else. That it does so whatever `PROG_LEN` is is the model's choice (log entry
9): the operand's fetch has already succeeded when the meaning starts. Where it has not, R97 puts `OutOfRangeFetch` first
(`LdaImmStep`, `FaultPriorityTable`). -/
def Obligations.LdaImmTrapsAtCounterLimit : Prop :=
  ∀ (imm8 : Byte) (s : State), s.pc = 0xFFFF#16 →
    ∃ t, exec (.ldaImm imm8) s = .next t ∧ t.runState = .faulted ∧
      t.fault = ⟨.pcOverflow, 0x00#8, 0xFFFF#16, .operand⟩ ∧ t.a = s.a ∧ t.x = s.x ∧ t.p = s.p ∧ t.pc = s.pc ∧ ImageKept s t

/-- R84 from dispatch on (where a meaning starts is log entry 9): `TAX` always completes. -/
def Obligations.TaxCompletes : Prop :=
  ∀ s : State, ∃ t, exec .tax s = .next t ∧ t.x = s.a ∧ FlagsFrom s.p t.p s.a ∧
    t.a = s.a ∧ t.pc = s.pc ∧ t.runState = s.runState ∧ t.fault = s.fault ∧ ImageKept s t

/-- R85 from dispatch on (where a meaning starts is log entry 9): `INX` always completes; the sum is modulo 256. -/
def Obligations.InxCompletes : Prop :=
  ∀ s : State, ∃ t, exec .inx s = .next t ∧ t.x.toNat = (s.x.toNat + 1) % 256 ∧ FlagsFrom s.p t.p t.x ∧
    t.a = s.a ∧ t.pc = s.pc ∧ t.runState = s.runState ∧ t.fault = s.fault ∧ ImageKept s t

/-- R86 from dispatch on (where a meaning starts is log entry 9): `HALT` always completes, and writes the engine state only. That
it does not undo the loop's advance of `PC` is the spec's decision D9 (log entry 7). -/
def Obligations.HaltCompletes : Prop :=
  ∀ s : State, ∃ t, exec .halt s = .next t ∧ t.runState = .halted ∧
    t.a = s.a ∧ t.x = s.x ∧ t.p = s.p ∧ t.pc = s.pc ∧ t.fault = s.fault ∧ ImageKept s t

/-! ### The whole step of each instruction -/

/-- R83, the whole step: `PC` ends at `a + 2`; the operand's two faults leave `A`, `X` and `P` (record and `PC` there: D5, D7,
D8). -/
def Obligations.LdaImmStep : Prop :=
  ∀ s : State, s.atOpcode 0xA9#8 →
    ∃ t, step s = .next t ∧ t.x = s.x ∧ ImageKept s t ∧
      if s.image.progLen ≤ s.pc.toNat + 1 then
        t.runState = .faulted ∧ t.fault = ⟨.outOfRangeFetch, 0x00#8, s.pc + 1#16, .operand⟩ ∧ t.a = s.a ∧ t.p = s.p ∧
          t.pc.toNat = s.pc.toNat + 1
      else if s.pc = 0xFFFE#16 then
        t.runState = .faulted ∧ t.fault = ⟨.pcOverflow, 0x00#8, 0xFFFF#16, .operand⟩ ∧ t.a = s.a ∧ t.p = s.p ∧
          t.pc = 0xFFFF#16
      else
        t.a = s.image.read (s.pc.toNat + 1) ∧ FlagsFrom s.p t.p (s.image.read (s.pc.toNat + 1)) ∧
          t.pc.toNat = s.pc.toNat + 2 ∧ t.runState = .running ∧ t.fault = s.fault

/-- R84, the whole step: encoding 0xAA, one byte; `X` and the flags from `A`; nothing else but `PC`. -/
def Obligations.TaxStep : Prop :=
  encode .tax = [0xAA#8] ∧
    ∀ s : State, s.atOpcode 0xAA#8 →
      ∃ t, step s = .next t ∧ t.x = s.a ∧ FlagsFrom s.p t.p s.a ∧ t.pc.toNat = s.pc.toNat + 1 ∧ t.a = s.a ∧
        t.runState = .running ∧ t.fault = s.fault ∧ ImageKept s t

/-- R85, the whole step: encoding 0xE8, one byte; the wrap raises nothing; `Z` is 1 exactly when the old `X` was 0xFF; and 256
`INX` in a row return `X` to its start value, with the flags reflecting it. -/
def Obligations.InxStep : Prop :=
  encode .inx = [0xE8#8] ∧
    (∀ s : State, s.atOpcode 0xE8#8 →
      ∃ t, step s = .next t ∧ t.x.toNat = (s.x.toNat + 1) % 256 ∧ FlagsFrom s.p t.p t.x ∧
        zeroFlag t.p = decide (s.x = 0xFF#8) ∧ t.pc.toNat = s.pc.toNat + 1 ∧ t.a = s.a ∧
        t.runState = .running ∧ t.fault = s.fault ∧ ImageKept s t) ∧
    ∀ s : State, ∃ t, execRepeat .inx 256 s = .next t ∧ t.x = s.x ∧ FlagsFrom s.p t.p s.x

/-- R86, the whole step: the run ends `Halted` with `PC` one past the opcode (D9), whatever follows it; at index 0xFFFF it
raises `PcOverflow` instead (D5). -/
def Obligations.HaltStep : Prop :=
  (∀ s : State, s.atOpcode 0x00#8 →
      ∃ t, step s = .next t ∧ t.runState = .halted ∧ t.pc.toNat = s.pc.toNat + 1 ∧ t.a = s.a ∧ t.x = s.x ∧ t.p = s.p ∧
        t.fault = s.fault ∧ ImageKept s t) ∧
    ∀ s : State, s.runState = .running → s.pc = 0xFFFF#16 → s.pc.toNat < s.image.progLen →
      s.image.read s.pc.toNat = 0x00#8 →
      ∃ t, step s = .next t ∧ t.runState = .faulted ∧ t.fault = ⟨.pcOverflow, 0x00#8, 0xFFFF#16, .opcode⟩ ∧ t.pc = s.pc

/-- R87, the whole step: an undefined opcode raises `UnknownOpcode` with the byte and its index (D7), `PC` one past it (D8),
with no other effect and no operand fetch; at 0xFFFF the advance raises first (D5). -/
def Obligations.UndefinedOpcodeStep : Prop :=
  (∀ (s : State) (op : Byte), op ≠ 0x00#8 → op ≠ 0xA9#8 → op ≠ 0xAA#8 → op ≠ 0xE8#8 → s.atOpcode op →
      ∃ t, step s = .next t ∧ t.runState = .faulted ∧ t.fault = ⟨.unknownOpcode, op, s.pc, .opcode⟩ ∧
        t.pc.toNat = s.pc.toNat + 1 ∧ t.a = s.a ∧ t.x = s.x ∧ t.p = s.p ∧ ImageKept s t) ∧
    ∀ s : State, s.runState = .running → s.pc = 0xFFFF#16 → s.pc.toNat < s.image.progLen →
      (describe (s.image.read s.pc.toNat)).cls = .undefined →
      ∃ t, step s = .next t ∧ t.runState = .faulted ∧ t.fault = ⟨.pcOverflow, 0x00#8, 0xFFFF#16, .opcode⟩ ∧ t.pc = s.pc

/-- A step runs the decoded instruction (R69): where the bytes at `PC` decode, the step is that instruction's meaning on the
state with `PC` one past the opcode. That the meaning is given this state, its operand already fetched, is the model's choice
(log entry 9). -/
def Obligations.StepRunsDecodedInstruction : Prop :=
  ∀ (s : State) (i : Instr) (rest : List Byte), s.runState = .running → s.pc ≠ 0xFFFF#16 → i.wellFormed = true →
    decode s.codeBytes = .instr i rest → step s = exec i (s.setPc (s.pc + 1#16))

/-- Where the bytes at `PC` do not decode, the step raises the fault the rejection stands for (R69, R97; records and `PC`: D7,
D8). -/
def Obligations.StepOnRejectedBytesRaises : Prop :=
  ∀ (s : State) (e : DecodeError), s.runState = .running → s.pc ≠ 0xFFFF#16 → decode s.codeBytes = .rejected e →
    step s = .next
      (match e with
        | .noBytes => raise (.outOfRangeFetch s.pc .opcode) s
        | .undefinedOpcode op => raise (.unknownOpcode op s.pc) (s.setPc (s.pc + 1#16))
        | .missingOperand _ => raise (.outOfRangeFetch (s.pc + 1#16) .operand) (s.setPc (s.pc + 1#16)))

/-! ### Faults -/

/-- What a raise does (the spec's D7 and D8): the record of each cause, `Faulted`, and nothing else. -/
def Obligations.RaiseWritesRecordOnly : Prop :=
  (∀ (c : Cause) (s : State), raise c s = { s with fault := c.record, runState := .faulted }) ∧
    (∀ (op : Byte) (addr : Index), (Cause.unknownOpcode op addr).record = ⟨.unknownOpcode, op, addr, .opcode⟩) ∧
    (∀ (addr : Index) (k : Access), (Cause.outOfRangeFetch addr k).record = ⟨.outOfRangeFetch, 0x00#8, addr, k⟩) ∧
    ∀ k : Access, (Cause.pcOverflow k).record = ⟨.pcOverflow, 0x00#8, 0xFFFF#16, k⟩

/-- R39: `Fetch` raises `OutOfRangeFetch` exactly at or past `PROG_LEN`, and else gives the image's byte and writes no state; with
`PROG_LEN` 0 every fetch raises. -/
def Obligations.FetchChecksTheBound : Prop :=
  ∀ (addr : Index) (k : Access) (s : State),
    (s.image.progLen ≤ addr.toNat → fetch addr k s = .raised (raise (.outOfRangeFetch addr k) s)) ∧
      (addr.toNat < s.image.progLen → fetch addr k s = .done (s.image.read addr.toNat) s) ∧
      (s.image.progLen = 0 → fetch addr k s = .raised (raise (.outOfRangeFetch addr k) s))

/-- `Advance` (the spec's D5): it adds exactly one below 0xFFFF, and raises there instead of wrapping. -/
def Obligations.AdvanceNeverWraps : Prop :=
  ∀ (k : Access) (s : State),
    (s.pc.toNat < 65535 → ∃ t, advance k s = .done () t ∧ t.pc.toNat = s.pc.toNat + 1 ∧ t.setPc s.pc = s) ∧
      (s.pc.toNat = 65535 → advance k s = .raised (raise (.pcOverflow k) s))

/-- A `Running` step past the image writes the engine state and the record only (the spec derives this in 40_engine.md; record:
D7). -/
def Obligations.OpcodeFetchPastImageFaults : Prop :=
  ∀ s : State, s.runState = .running → s.image.progLen ≤ s.pc.toNat →
    step s = .next { s with runState := .faulted, fault := ⟨.outOfRangeFetch, 0x00#8, s.pc, .opcode⟩ }

/-- The complete fault behaviour of a step: by the priority table (derived in 60_exceptions.md G3, with D5), the first fault
that applies is raised and no other; `PC` is then as the table of G4 says (D8) and `A`, `X`, `P` are kept; with none that
applies, the step does not fault and keeps the record. -/
def Obligations.FaultPriorityTable : Prop :=
  ∀ s : State, s.runState = .running →
    ∃ t, step s = .next t ∧
      match faultOfStep s with
      | some c => t = { s with pc := pcAfterFault c s.pc, fault := c.record, runState := .faulted }
      | none => t.runState ≠ .faulted ∧ t.fault = s.fault

/-- `PcOverflow` needs an image longer than 0xFFFF (the fault is the spec's D5). -/
def Obligations.PcOverflowNeedsLongImage : Prop :=
  ∀ s t : State, s.runState = .running → step s = .next t → t.runState = .faulted → t.fault.code = .pcOverflow →
    0xFFFF < s.image.progLen

/-- No partial effect (derived in 40_engine.md): a step that ends `Faulted` leaves `A`, `X` and `P`. -/
def Obligations.FaultingStepLeavesRegisters : Prop :=
  ∀ s t : State, s.runState = .running → step s = .next t → t.runState = .faulted →
    t.a = s.a ∧ t.x = s.x ∧ t.p = s.p ∧ t.fault.code ≠ .none

/-- Nothing stops the model itself: `step` and every meaning answer a next state. This is the model's own form. That `step`
answers in `Idle`, `Halted` and `Faulted`, where the spec has no step, is log entry 4 (DEDUCED); that the block's three faults
are next states is log entry 7. That no other condition faults is `FaultPriorityTable`. -/
def Obligations.EveryStepAnswersNext : Prop :=
  (∀ s : State, ∃ t, step s = .next t) ∧ ∀ (i : Instr) (s : State), ∃ t, exec i s = .next t

/-! ### Invariants -/

/-- The invariant holds at reset, and `PC` stands where reset leaves it. -/
def Obligations.InvHoldsAtReset : Prop := State.reset.Inv ∧ State.reset.PcInv

/-- Every step keeps the invariant, and keeps `PC` where the block left it; a step of a `Running` block puts it there, wherever it
was (the record's shape and `PC` after a fault: D7, D8). -/
def Obligations.StepKeepsInv : Prop :=
  ∀ s t : State, s.Inv → step s = .next t → t.Inv ∧ (s.PcInv → t.PcInv) ∧ (s.runState = .running → t.PcInv)

/-- Every interaction of the host keeps the invariant, and every one but its write of `PC` keeps `PC` where the block left it
(D14; the write of `PC` is R36's, log entry 16). -/
def Obligations.HostMovesKeepInv : Prop :=
  ∀ (m : HostMove) (s : State), s.Inv → (hostMove m s).Inv ∧ (m.isPcWrite = false → s.PcInv → (hostMove m s).PcInv)

/-- Every state that block and host can reach from reset meets the invariant; while the host has not written `PC` (R36, log entry
16), `PC` also stands where the block left it (D7, D8, D14). -/
def Obligations.ReachableStatesMeetInv : Prop :=
  (∀ s : State, Reachable (fun _ => true) s → s.Inv) ∧
    ∀ s : State, Reachable (fun m => !m.isPcWrite) s → s.Inv ∧ s.PcInv

/-! ### Rules about the whole machine -/

/-- R18: only `LDA #imm` writes `A`, only `TAX` reads it, and it is 0 at reset. -/
def Obligations.OnlyLdaWritesAOnlyTaxReadsIt : Prop :=
  (∀ s t : State, step s = .next t → t.a ≠ s.a → s.atOpcode 0xA9#8 ∧ t.a = s.image.read (s.pc.toNat + 1)) ∧
    (∀ (i : Instr) (s t : State), exec i s = .next t → t.a ≠ s.a → i = .ldaImm t.a) ∧
    (∀ (i : Instr) (s : State) (v : Byte), i ≠ .tax →
      ∃ t u, exec i s = .next t ∧ exec i (s.setA v) = .next u ∧ u.setA 0x00#8 = t.setA 0x00#8) ∧
    State.reset.a = 0x00#8

/-- R19: only `TAX` and `INX` write `X`, only `INX` reads it, and it is 0 at reset. -/
def Obligations.OnlyTaxAndInxWriteXOnlyInxReadsIt : Prop :=
  (∀ s t : State, step s = .next t → t.x ≠ s.x → s.atOpcode 0xAA#8 ∨ s.atOpcode 0xE8#8) ∧
    (∀ (i : Instr) (s t : State), exec i s = .next t → t.x ≠ s.x → i = .tax ∨ i = .inx) ∧
    (∀ (i : Instr) (s : State) (v : Byte), i ≠ .inx →
      ∃ t u, exec i s = .next t ∧ exec i (s.setX v) = .next u ∧ u.setX 0x00#8 = t.setX 0x00#8) ∧
    State.reset.x = 0x00#8

/-- R22, R23: `Z` and `N` are written by the three data instructions and by nothing else, each from the result; no instruction
reads `P`, the host does; both are 0 at reset. -/
def Obligations.FlagsWrittenByDataInstructionsReadByNone : Prop :=
  (∀ (imm8 : Byte) (s t : State), s.pc ≠ 0xFFFF#16 → exec (.ldaImm imm8) s = .next t → FlagsReflect t.p imm8) ∧
    (∀ s t : State, exec .tax s = .next t → FlagsReflect t.p t.x) ∧
    (∀ s t : State, exec .inx s = .next t → FlagsReflect t.p t.x) ∧
    (∀ s t : State, step s = .next t → t.p ≠ s.p → s.atOpcode 0xA9#8 ∨ s.atOpcode 0xAA#8 ∨ s.atOpcode 0xE8#8) ∧
    (∀ (s : State) (q : Byte), ∃ t u, step s = .next t ∧ step (s.setP q) = .next u ∧ u.setP 0x00#8 = t.setP 0x00#8) ∧
    (∀ s : State, s.outputs.pOut = s.p) ∧ zeroFlag State.reset.p = false ∧ negativeFlag State.reset.p = false

/-- R24: no instruction and no step writes a reserved bit of `P`; they are 0 at reset; between runs the host may set them to
anything (D13). -/
def Obligations.ReservedBitsAreKept : Prop :=
  (∀ s t : State, step s = .next t → reservedBits t.p = reservedBits s.p) ∧
    (∀ (i : Instr) (s t : State), exec i s = .next t → reservedBits t.p = reservedBits s.p) ∧
    reservedBits State.reset.p = 0x00#8 ∧
    ∀ (s : State) (d : Byte), s.runState ≠ .running →
      reservedBits (hostMove (.write false false true d) s).p = reservedBits d

/-- R25: a completed data instruction leaves the flags as its result sets them, and every other step keeps them so. -/
def Obligations.FlagsReflectTheLastResult : Prop :=
  ∀ s t : State, s.runState = .running → step s = .next t →
    match resultOfStep s with
    | some v => FlagsReflect t.p v
    | none => ∀ v : Byte, FlagsReflect s.p v → FlagsReflect t.p v

/-- R28, R88: `PC` only advances, one per byte fetched: a step that goes on ends just past its instruction, `HALT` ends one
past its opcode, and no step lowers or wraps `PC`. -/
def Obligations.PcOnlyAdvances : Prop :=
  ∀ s t : State, s.runState = .running → step s = .next t →
    s.pc.toNat ≤ t.pc.toNat ∧ t.pc.toNat ≤ s.pc.toNat + 2 ∧
      (t.runState ≠ .faulted → t.pc.toNat = s.pc.toNat + opcodeLength (s.image.read s.pc.toNat))

/-- R50: no step and no interaction changes the image while a run lasts; between runs the host may give another, and the next
run fetches from it. -/
def Obligations.ImageFixedDuringRun : Prop :=
  (∀ s t : State, step s = .next t → ImageKept s t) ∧
    (∀ (m : HostMove) (s : State), s.runState = .running → ImageKept s (hostMove m s)) ∧
    ∀ (bytes : List Byte) (s : State), s.runState ≠ .running →
      ∃ t, hostMove .runReq (hostMove (.supplyImage bytes) s) = t ∧ t.runState = .running ∧
        t.image.progLen = bytes.length ∧ ∀ k : Nat, k < bytes.length → bytes[k]? = some (t.image.read k)

/-- Outside `Running` no step is taken (D15): nothing changes. That the step function answers the same state is the model's
form of it (log entry 4). -/
def Obligations.QuietStatesDoNotMove : Prop := ∀ s : State, s.runState ≠ .running → step s = .next s

/-- R86's "the only transition Running→Halted is the Halt opcode", and R82's three results: a step of a running block
continues, halts or faults with the reason recorded. -/
def Obligations.OnlyHaltEndsARunWell : Prop :=
  ∀ s t : State, s.runState = .running → step s = .next t →
    (t.endedWell ↔ s.atOpcode 0x00#8) ∧
      (t.result = some .cont ∨ t.result = some .halt ∨ t.result = some (.fault t.fault))

/-- The descriptor's columns (30_encoding.md, Handler descriptor, derived there) foretell the step: how it ends, what it
writes, and where the flags come from. -/
def Obligations.DescriptorForetellsStep : Prop :=
  ∀ (s t : State) (op : Byte), s.atOpcode op → step s = .next t →
    ((describe op).endsRun = .halted ↔ t.runState = .halted) ∧
      ((describe op).endsRun = .faulted → t.runState = .faulted ∧ t.fault.code = .unknownOpcode) ∧
      (∀ r : Reg, (describe op).destination ≠ some r → t.reg r = s.reg r) ∧
      ((describe op).flagSource = none → t.p = s.p) ∧
      (∀ r : Reg, (describe op).flagSource = some r → t.runState ≠ .faulted → FlagsFrom s.p t.p (t.reg r))

/-- Every run ends within `min(PROG_LEN + 1, 65536)` steps, `Halted` or `Faulted` (the bound is derived in 40_engine.md; it
rests on D5 at the counter's limit). Steps after the end change nothing (log entry 4), so the state after exactly that many
is the run's end. -/
def Obligations.EveryRunEndsWithinBound : Prop :=
  ∀ s : State, s.runState ≠ .running →
    ∃ t, Host.Core.run Sys2Proof.core (min (s.image.progLen + 1) 65536) (runReq s) = .next t ∧ t.runEnded

/-- Bytes at index 0x10000 and above never matter (derived in 20_memory.md): two images alike below it give the same step. -/
def Obligations.ImageBeyondReachDoesNotMatter : Prop :=
  ∀ (s t : State) (m : Memory),
    (∀ i : Nat, i < 65536 → ((i < m.progLen ↔ i < s.image.progLen) ∧ m.read i = s.image.read i)) →
    step s = .next t → step (s.setImage m) = .next (t.setImage m)

/-! ### Reset, runs and the host -/

/-- R112: what reset leaves. `Idle` and the cleared record are the spec's D3 and D7. -/
def Obligations.ResetValues : Prop :=
  State.reset.a = 0x00#8 ∧ State.reset.x = 0x00#8 ∧ State.reset.p = 0x00#8 ∧ State.reset.pc = 0x0000#16 ∧
    State.reset.runState = .idle ∧ State.reset.fault = ⟨.none, 0x00#8, 0x0000#16, .opcode⟩

/-- A run request (R67; keeping `A`, `X`, `P` is D4, the refusal D14). -/
def Obligations.RunRequestStartsARun : Prop :=
  (∀ s : State, s.runState ≠ .running →
      hostMove .runReq s =
        { s with pc := 0x0000#16, fault := ⟨.none, 0x00#8, 0x0000#16, .opcode⟩, runState := .running }) ∧
    ∀ s : State, s.runState = .running → hostMove .runReq s = s

/-- The host's table (60_exceptions.md, The host interface, decided in D14; that `rst` keeps the image is log entry 3), and the
host's write of `PC` (10_state.md, Block interface; as an interaction of its own, log entry 16), which the next run overwrites. -/
def Obligations.HostMovesByEngineState : Prop :=
  (∀ (m : HostMove) (s : State), s.runState = .running → hostMove m s = s) ∧
    ∀ s : State, s.runState ≠ .running →
      hostMove .read s = s ∧ hostMove .cancel s = s ∧
        (∀ (wa wx wp : Bool) (d : Byte), hostMove (.write wa wx wp d) s =
          { s with a := if wa then d else s.a, x := if wx then d else s.x, p := if wp then d else s.p }) ∧
        (∀ i : Index, hostMove (.writePc i) s = { s with pc := i } ∧
          hostMove .runReq (hostMove (.writePc i) s) = hostMove .runReq s) ∧
        (∀ bytes : List Byte, hostMove (.supplyImage bytes) s = { s with image := Memory.ofBytes bytes }) ∧
        hostMove .rst s = { State.reset with image := s.image }

/-- The order of set-up does not matter (derived in 70_reset_and_hazards.md): writes of different registers, `PC` among them (log
entry 16), and a write and an image, commute. -/
def Obligations.SetupOrderDoesNotMatter : Prop :=
  ∀ (s : State) (wa wx wp va vx vp : Bool) (d e : Byte) (i : Index) (bytes : List Byte),
    (¬(wa = true ∧ va = true) → ¬(wx = true ∧ vx = true) → ¬(wp = true ∧ vp = true) →
      hostMove (.write wa wx wp d) (hostMove (.write va vx vp e) s) =
        hostMove (.write va vx vp e) (hostMove (.write wa wx wp d) s)) ∧
      hostMove (.write wa wx wp d) (hostMove (.supplyImage bytes) s) =
        hostMove (.supplyImage bytes) (hostMove (.write wa wx wp d) s) ∧
      hostMove (.writePc i) (hostMove (.write wa wx wp d) s) = hostMove (.write wa wx wp d) (hostMove (.writePc i) s) ∧
      hostMove (.writePc i) (hostMove (.supplyImage bytes) s) = hostMove (.supplyImage bytes) (hostMove (.writePc i) s)

/-- The ports (the encodings are the spec's D2, D3 and D7): the codes tell the values apart, the host reads all of the state
exactly between runs (that it reads nothing while `Running` is the spec's D14, log entry 11), and a fetch at `img_addr` gives `img_data` where `img_in_range` is 1 and raises where it is 0. That
`img_addr` is `PC` in every state, not only at a fetch, and is among what the host reads, is the model's choice (log entry
15). -/
def Obligations.PortsShowTheState : Prop :=
  (RunState.code .idle = 0b00#2 ∧ RunState.code .running = 0b01#2 ∧ RunState.code .halted = 0b10#2 ∧
      RunState.code .faulted = 0b11#2) ∧
    (FaultCode.code .none = 0#2 ∧ FaultCode.code .unknownOpcode = 1#2 ∧ FaultCode.code .outOfRangeFetch = 2#2 ∧
      FaultCode.code .pcOverflow = 3#2) ∧
    (Access.code .opcode = 0#1 ∧ Access.code .operand = 1#1) ∧
    (∀ s : State, s.runState = .running → hostRead s = none) ∧
    (∀ s : State, s.runState ≠ .running → hostRead s = some s.outputs) ∧
    (∀ s t : State, s.outputs = t.outputs → s.image = t.image → s = t) ∧
    ∀ (k : Access) (s : State), s.outputs.imgAddr = s.pc ∧
      fetch s.outputs.imgAddr k s =
        (if s.imgInRange s.outputs.imgAddr then .done (s.imgData s.outputs.imgAddr) s
          else .raised (raise (.outOfRangeFetch s.pc k) s))
end

