-- ==== Sys2Proof/Laws/Decode.lean ====
section
/-! SUPPORT. The decoder's table row by row, and the decoder on each class. -/

namespace Sys2Proof

@[simp] theorem describe_ldaImm : describe 0xA9#8 = ⟨.ldaImm, 1, some .a, some .a, .no⟩ := rfl
@[simp] theorem describe_tax : describe 0xAA#8 = ⟨.tax, 0, some .x, some .x, .no⟩ := rfl
@[simp] theorem describe_inx : describe 0xE8#8 = ⟨.inx, 0, some .x, some .x, .no⟩ := rfl
@[simp] theorem describe_halt : describe 0x00#8 = ⟨.halt, 0, none, none, .halted⟩ := rfl

theorem describe_undefined {op : Byte} (h1 : op ≠ 0xA9#8) (h2 : op ≠ 0xAA#8) (h3 : op ≠ 0xE8#8) (h4 : op ≠ 0x00#8) :
    describe op = ⟨.undefined, 0, none, none, .faulted⟩ := by
  rw [describe, if_neg h1, if_neg h2, if_neg h3, if_neg h4]

/-- Everything the table can say of a byte (R57). -/
theorem describe_cases (op : Byte) :
    op = 0xA9#8 ∨ op = 0xAA#8 ∨ op = 0xE8#8 ∨ op = 0x00#8 ∨
      (op ≠ 0xA9#8 ∧ op ≠ 0xAA#8 ∧ op ≠ 0xE8#8 ∧ op ≠ 0x00#8 ∧ describe op = ⟨.undefined, 0, none, none, .faulted⟩) := by
  by_cases h1 : op = 0xA9#8
  · exact .inl h1
  by_cases h2 : op = 0xAA#8
  · exact .inr (.inl h2)
  by_cases h3 : op = 0xE8#8
  · exact .inr (.inr (.inl h3))
  by_cases h4 : op = 0x00#8
  · exact .inr (.inr (.inr (.inl h4)))
  · exact .inr (.inr (.inr (.inr ⟨h1, h2, h3, h4, describe_undefined h1 h2 h3 h4⟩)))

@[simp] theorem decode_nil : decode [] = .rejected .noBytes := rfl
@[simp] theorem decode_ldaImm (v : Byte) (rest : List Byte) : decode (0xA9#8 :: v :: rest) = .instr (.ldaImm v) rest := rfl
@[simp] theorem decode_ldaImm_alone : decode [0xA9#8] = .rejected (.missingOperand 0xA9#8) := rfl
@[simp] theorem decode_tax (rest : List Byte) : decode (0xAA#8 :: rest) = .instr .tax rest := by cases rest <;> rfl
@[simp] theorem decode_inx (rest : List Byte) : decode (0xE8#8 :: rest) = .instr .inx rest := by cases rest <;> rfl
@[simp] theorem decode_halt (rest : List Byte) : decode (0x00#8 :: rest) = .instr .halt rest := by cases rest <;> rfl

theorem decode_undefined {op : Byte} (rest : List Byte) (h : (describe op).cls = .undefined) :
    decode (op :: rest) = .rejected (.undefinedOpcode op) := by
  cases rest <;> simp [decode, h]

end Sys2Proof
end

