-- ==== Sys2Proof/Laws/State.lean ====
section
/-! SUPPORT. One lemma per field and update of the state, so that no proof unfolds a record update; and the fields after the
shared operations that only update the state. -/

namespace Sys2Proof.Machine

/-! ### `State.setA` -/

@[simp] theorem State.setA_a (s : State) (v : Byte) : (s.setA v).a = v := rfl
@[simp] theorem State.setA_x (s : State) (v : Byte) : (s.setA v).x = s.x := rfl
@[simp] theorem State.setA_p (s : State) (v : Byte) : (s.setA v).p = s.p := rfl
@[simp] theorem State.setA_pc (s : State) (v : Byte) : (s.setA v).pc = s.pc := rfl
@[simp] theorem State.setA_runState (s : State) (v : Byte) : (s.setA v).runState = s.runState := rfl
@[simp] theorem State.setA_fault (s : State) (v : Byte) : (s.setA v).fault = s.fault := rfl
@[simp] theorem State.setA_image (s : State) (v : Byte) : (s.setA v).image = s.image := rfl

/-! ### `State.setX` -/

@[simp] theorem State.setX_a (s : State) (v : Byte) : (s.setX v).a = s.a := rfl
@[simp] theorem State.setX_x (s : State) (v : Byte) : (s.setX v).x = v := rfl
@[simp] theorem State.setX_p (s : State) (v : Byte) : (s.setX v).p = s.p := rfl
@[simp] theorem State.setX_pc (s : State) (v : Byte) : (s.setX v).pc = s.pc := rfl
@[simp] theorem State.setX_runState (s : State) (v : Byte) : (s.setX v).runState = s.runState := rfl
@[simp] theorem State.setX_fault (s : State) (v : Byte) : (s.setX v).fault = s.fault := rfl
@[simp] theorem State.setX_image (s : State) (v : Byte) : (s.setX v).image = s.image := rfl

/-! ### `State.setP` -/

@[simp] theorem State.setP_a (s : State) (v : Byte) : (s.setP v).a = s.a := rfl
@[simp] theorem State.setP_x (s : State) (v : Byte) : (s.setP v).x = s.x := rfl
@[simp] theorem State.setP_p (s : State) (v : Byte) : (s.setP v).p = v := rfl
@[simp] theorem State.setP_pc (s : State) (v : Byte) : (s.setP v).pc = s.pc := rfl
@[simp] theorem State.setP_runState (s : State) (v : Byte) : (s.setP v).runState = s.runState := rfl
@[simp] theorem State.setP_fault (s : State) (v : Byte) : (s.setP v).fault = s.fault := rfl
@[simp] theorem State.setP_image (s : State) (v : Byte) : (s.setP v).image = s.image := rfl

/-! ### `State.setPc` -/

@[simp] theorem State.setPc_a (s : State) (v : Index) : (s.setPc v).a = s.a := rfl
@[simp] theorem State.setPc_x (s : State) (v : Index) : (s.setPc v).x = s.x := rfl
@[simp] theorem State.setPc_p (s : State) (v : Index) : (s.setPc v).p = s.p := rfl
@[simp] theorem State.setPc_pc (s : State) (v : Index) : (s.setPc v).pc = v := rfl
@[simp] theorem State.setPc_runState (s : State) (v : Index) : (s.setPc v).runState = s.runState := rfl
@[simp] theorem State.setPc_fault (s : State) (v : Index) : (s.setPc v).fault = s.fault := rfl
@[simp] theorem State.setPc_image (s : State) (v : Index) : (s.setPc v).image = s.image := rfl

/-! ### `State.setRunState` -/

@[simp] theorem State.setRunState_a (s : State) (v : RunState) : (s.setRunState v).a = s.a := rfl
@[simp] theorem State.setRunState_x (s : State) (v : RunState) : (s.setRunState v).x = s.x := rfl
@[simp] theorem State.setRunState_p (s : State) (v : RunState) : (s.setRunState v).p = s.p := rfl
@[simp] theorem State.setRunState_pc (s : State) (v : RunState) : (s.setRunState v).pc = s.pc := rfl
@[simp] theorem State.setRunState_runState (s : State) (v : RunState) : (s.setRunState v).runState = v := rfl
@[simp] theorem State.setRunState_fault (s : State) (v : RunState) : (s.setRunState v).fault = s.fault := rfl
@[simp] theorem State.setRunState_image (s : State) (v : RunState) : (s.setRunState v).image = s.image := rfl

/-! ### `State.setFault` -/

@[simp] theorem State.setFault_a (s : State) (v : FaultRecord) : (s.setFault v).a = s.a := rfl
@[simp] theorem State.setFault_x (s : State) (v : FaultRecord) : (s.setFault v).x = s.x := rfl
@[simp] theorem State.setFault_p (s : State) (v : FaultRecord) : (s.setFault v).p = s.p := rfl
@[simp] theorem State.setFault_pc (s : State) (v : FaultRecord) : (s.setFault v).pc = s.pc := rfl
@[simp] theorem State.setFault_runState (s : State) (v : FaultRecord) : (s.setFault v).runState = s.runState := rfl
@[simp] theorem State.setFault_fault (s : State) (v : FaultRecord) : (s.setFault v).fault = v := rfl
@[simp] theorem State.setFault_image (s : State) (v : FaultRecord) : (s.setFault v).image = s.image := rfl

/-! ### `State.setImage` -/

@[simp] theorem State.setImage_a (s : State) (v : Memory) : (s.setImage v).a = s.a := rfl
@[simp] theorem State.setImage_x (s : State) (v : Memory) : (s.setImage v).x = s.x := rfl
@[simp] theorem State.setImage_p (s : State) (v : Memory) : (s.setImage v).p = s.p := rfl
@[simp] theorem State.setImage_pc (s : State) (v : Memory) : (s.setImage v).pc = s.pc := rfl
@[simp] theorem State.setImage_runState (s : State) (v : Memory) : (s.setImage v).runState = s.runState := rfl
@[simp] theorem State.setImage_fault (s : State) (v : Memory) : (s.setImage v).fault = s.fault := rfl
@[simp] theorem State.setImage_image (s : State) (v : Memory) : (s.setImage v).image = v := rfl

/-! ### `raise` (R99) -/

@[simp] theorem raise_a (c : Cause) (s : State) : (raise c s).a = s.a := rfl
@[simp] theorem raise_x (c : Cause) (s : State) : (raise c s).x = s.x := rfl
@[simp] theorem raise_p (c : Cause) (s : State) : (raise c s).p = s.p := rfl
@[simp] theorem raise_pc (c : Cause) (s : State) : (raise c s).pc = s.pc := rfl
@[simp] theorem raise_runState (c : Cause) (s : State) : (raise c s).runState = .faulted := rfl
@[simp] theorem raise_fault (c : Cause) (s : State) : (raise c s).fault = c.record := rfl
@[simp] theorem raise_image (c : Cause) (s : State) : (raise c s).image = s.image := rfl

/-! ### `startRun` (R67) -/

@[simp] theorem startRun_a (s : State) : (startRun s).a = s.a := rfl
@[simp] theorem startRun_x (s : State) : (startRun s).x = s.x := rfl
@[simp] theorem startRun_p (s : State) : (startRun s).p = s.p := rfl
@[simp] theorem startRun_pc (s : State) : (startRun s).pc = 0x0000#16 := rfl
@[simp] theorem startRun_runState (s : State) : (startRun s).runState = .running := rfl
@[simp] theorem startRun_fault (s : State) : (startRun s).fault = FaultRecord.clear := rfl
@[simp] theorem startRun_image (s : State) : (startRun s).image = s.image := rfl

/-! ### `State.observe` (R77) -/

@[simp] theorem State.observe_a (s : State) (r : Byte) : (s.observe r).a = s.a := rfl
@[simp] theorem State.observe_x (s : State) (r : Byte) : (s.observe r).x = s.x := rfl
@[simp] theorem State.observe_p (s : State) (r : Byte) : (s.observe r).p = flagsNZ s.p r := rfl
@[simp] theorem State.observe_pc (s : State) (r : Byte) : (s.observe r).pc = s.pc := rfl
@[simp] theorem State.observe_runState (s : State) (r : Byte) : (s.observe r).runState = s.runState := rfl
@[simp] theorem State.observe_fault (s : State) (r : Byte) : (s.observe r).fault = s.fault := rfl
@[simp] theorem State.observe_image (s : State) (r : Byte) : (s.observe r).image = s.image := rfl

/-- Two states with equal fields are equal. -/
theorem State.ext_fields {s t : State} (ha : s.a = t.a) (hx : s.x = t.x) (hp : s.p = t.p) (hpc : s.pc = t.pc)
    (hr : s.runState = t.runState) (hf : s.fault = t.fault) (hi : s.image = t.image) : s = t := by
  cases s; cases t; simp_all

end Sys2Proof.Machine
end

