-- ==== Sys2Proof/Laws/Ops.lean ====
section
/-! SUPPORT. One lemma per shared operation that says everything it can do. -/

namespace Sys2Proof.Machine

@[simp] theorem SubStep.andThen_done {α β : Type} (v : α) (s : State) (f : α → State → SubStep β) :
    (SubStep.done v s).andThen f = f v s := rfl

@[simp] theorem SubStep.andThen_raised {α β : Type} (s : State) (f : α → State → SubStep β) :
    (SubStep.raised s : SubStep α).andThen f = .raised s := rfl

/-- A fetch past the image raises (R39, R92). -/
theorem fetch_outOfRange {addr : Index} {s : State} (kind : Access) (h : s.image.progLen ≤ addr.toNat) :
    fetch addr kind s = .raised (raise (.outOfRangeFetch addr kind) s) := by
  simp [fetch, h]

/-- A fetch inside the image gives the image's byte and writes no state (R39, R44). -/
theorem fetch_inRange {addr : Index} {s : State} (kind : Access) (h : addr.toNat < s.image.progLen) :
    fetch addr kind s = .done (s.image.read addr.toNat) s := by
  simp [fetch, Nat.not_le.mpr h]

/-- Everything a fetch can do. -/
theorem fetch_cases (addr : Index) (kind : Access) (s : State) :
    (s.image.progLen ≤ addr.toNat ∧ fetch addr kind s = .raised (raise (.outOfRangeFetch addr kind) s)) ∨
    (addr.toNat < s.image.progLen ∧ fetch addr kind s = .done (s.image.read addr.toNat) s) := by
  rcases Nat.lt_or_ge addr.toNat s.image.progLen with h | h
  · exact .inr ⟨h, fetch_inRange kind h⟩
  · exact .inl ⟨h, fetch_outOfRange kind h⟩

/-- An advance at the counter's limit raises (R71, R93). -/
theorem advance_atLimit {s : State} (kind : Access) (h : s.pc = 0xFFFF#16) :
    advance kind s = .raised (raise (.pcOverflow kind) s) := if_pos h

/-- An advance below the limit adds one to `PC` (R71). -/
theorem advance_belowLimit {s : State} (kind : Access) (h : s.pc ≠ 0xFFFF#16) :
    advance kind s = .done () (s.setPc (s.pc + 1#16)) := if_neg h

/-- Everything an advance can do. -/
theorem advance_cases (kind : Access) (s : State) :
    (s.pc = 0xFFFF#16 ∧ advance kind s = .raised (raise (.pcOverflow kind) s)) ∨
    (s.pc ≠ 0xFFFF#16 ∧ advance kind s = .done () (s.setPc (s.pc + 1#16))) := by
  by_cases h : s.pc = 0xFFFF#16
  · exact .inl ⟨h, advance_atLimit kind h⟩
  · exact .inr ⟨h, advance_belowLimit kind h⟩

/-- Below its limit the counter's next value is exact, not wrapped (R11, R30). -/
theorem toNat_pc_succ {pc : Index} (h : pc ≠ 0xFFFF#16) : (pc + 1#16).toNat = pc.toNat + 1 := by
  have hlt : pc.toNat ≠ 65535 := fun hc => h (BitVec.eq_of_toNat_eq (by simpa using hc))
  have := pc.isLt
  rw [BitVec.toNat_add]
  simp
  omega

/-- No operand byte: nothing is fetched (R61). -/
@[simp] theorem fetchOperands_zero (s : State) : fetchOperands 0 s = .done [] s := rfl

/-- One operand byte: a fetch at the advanced `PC` (R63). -/
@[simp] theorem fetchOperands_one (s : State) :
    fetchOperands 1 s = (fetch s.pc .operand s).andThen fun v t => .done [v] t := rfl

theorem runReq_running {s : State} (h : s.runState = .running) : runReq s = s := by simp [runReq, h]

theorem runReq_quiet {s : State} (h : s.runState ≠ .running) : runReq s = startRun s := by simp [runReq, h]

end Sys2Proof.Machine
end

