-- ==== Sys2Proof/Laws/Engine.lean ====
section
/-! SUPPORT. What the engine's fetch stage and a step can do, said once. -/

namespace Sys2Proof.Machine

/-- Everything the fetch stage can do: its checks in the order of R97, then one instruction ready for dispatch, with `PC` one
past the opcode. -/
theorem fetchInstr_cases (s : State) :
    (s.image.progLen ≤ s.pc.toNat ∧ fetchInstr s = .raised (raise (.outOfRangeFetch s.pc .opcode) s)) ∨
    (s.pc.toNat < s.image.progLen ∧ s.pc = 0xFFFF#16 ∧ fetchInstr s = .raised (raise (.pcOverflow .opcode) s)) ∨
    (s.pc.toNat < s.image.progLen ∧ s.pc ≠ 0xFFFF#16 ∧
      (let op := s.image.read s.pc.toNat
       let t := s.setPc (s.pc + 1#16)
       (op ≠ 0xA9#8 ∧ op ≠ 0xAA#8 ∧ op ≠ 0xE8#8 ∧ op ≠ 0x00#8 ∧ fetchInstr s = .raised (raise (.unknownOpcode op s.pc) t)) ∨
       (op = 0xA9#8 ∧ s.image.progLen ≤ s.pc.toNat + 1 ∧
          fetchInstr s = .raised (raise (.outOfRangeFetch (s.pc + 1#16) .operand) t)) ∨
       (op = 0xA9#8 ∧ s.pc.toNat + 1 < s.image.progLen ∧
          fetchInstr s = .done (.ldaImm (s.image.read (s.pc.toNat + 1))) t) ∨
       (op = 0xAA#8 ∧ fetchInstr s = .done .tax t) ∨
       (op = 0xE8#8 ∧ fetchInstr s = .done .inx t) ∨
       (op = 0x00#8 ∧ fetchInstr s = .done .halt t))) := by
  rcases fetch_cases s.pc .opcode s with ⟨h, hf⟩ | ⟨h, hf⟩
  · exact .inl ⟨h, by simp [fetchInstr, hf]⟩
  rcases advance_cases .opcode s with ⟨hp, ha⟩ | ⟨hp, ha⟩
  · exact .inr (.inl ⟨h, hp, by simp [fetchInstr, hf, ha]⟩)
  refine .inr (.inr ⟨h, hp, ?_⟩)
  have hpc := toNat_pc_succ hp
  rcases describe_cases (s.image.read s.pc.toNat) with hop | hop | hop | hop | ⟨h1, h2, h3, h4, hd⟩
  · rcases fetch_cases (s.pc + 1#16) .operand (s.setPc (s.pc + 1#16)) with ⟨ho, hg⟩ | ⟨ho, hg⟩ <;>
      simp only [State.setPc_image, hpc] at ho
    · exact .inr (.inl ⟨hop, ho, by simp [fetchInstr, hf, ha, hop, hg]⟩)
    · exact .inr (.inr (.inl ⟨hop, ho, by simp [fetchInstr, hf, ha, hop, hg, hpc]⟩))
  · exact .inr (.inr (.inr (.inl ⟨hop, by simp [fetchInstr, hf, ha, hop]⟩)))
  · exact .inr (.inr (.inr (.inr (.inl ⟨hop, by simp [fetchInstr, hf, ha, hop]⟩))))
  · exact .inr (.inr (.inr (.inr (.inr ⟨hop, by simp [fetchInstr, hf, ha, hop]⟩))))
  · refine .inl ⟨h1, h2, h3, h4, ?_⟩
    simp [fetchInstr, hf, ha, hd, decode_undefined [] (by rw [hd]), raiseUndefined]

/-- The only handler that can raise: `LDA #imm`, at its operand's advance (R83). -/
theorem execLdaImm_cases (imm8 : Byte) (s : State) :
    (s.pc = 0xFFFF#16 ∧ execLdaImm imm8 s = .next (raise (.pcOverflow .operand) s)) ∨
    (s.pc ≠ 0xFFFF#16 ∧ execLdaImm imm8 s = .next (((s.setPc (s.pc + 1#16)).setA imm8).observe imm8)) := by
  rcases advance_cases .operand s with ⟨h, ha⟩ | ⟨h, ha⟩
  · exact .inl ⟨h, by simp [execLdaImm, ha]⟩
  · exact .inr ⟨h, by simp [execLdaImm, ha]⟩

theorem step_running {s : State} (h : s.runState = .running) : step s = runInstr s := by
  simp [step, engineStep, h]

theorem step_of_done {s t : State} {i : Instr} (h : s.runState = .running) (hf : fetchInstr s = .done i t) :
    step s = exec i t := by
  simp [step_running h, runInstr, hf]

theorem step_of_raised {s t : State} (h : s.runState = .running) (hf : fetchInstr s = .raised t) : step s = .next t := by
  simp [step_running h, runInstr, hf]

/-- Everything a step of a `Running` block can do: a fault in the order of R97, or one instruction completed (R69). -/
theorem step_cases {s : State} (hr : s.runState = .running) :
    (s.image.progLen ≤ s.pc.toNat ∧ step s = .next (raise (.outOfRangeFetch s.pc .opcode) s)) ∨
    (s.pc.toNat < s.image.progLen ∧ s.pc = 0xFFFF#16 ∧ step s = .next (raise (.pcOverflow .opcode) s)) ∨
    (s.pc.toNat < s.image.progLen ∧ s.pc ≠ 0xFFFF#16 ∧
      (let op := s.image.read s.pc.toNat
       let t := s.setPc (s.pc + 1#16)
       (op ≠ 0xA9#8 ∧ op ≠ 0xAA#8 ∧ op ≠ 0xE8#8 ∧ op ≠ 0x00#8 ∧ step s = .next (raise (.unknownOpcode op s.pc) t)) ∨
       (op = 0xA9#8 ∧ s.image.progLen ≤ s.pc.toNat + 1 ∧
          step s = .next (raise (.outOfRangeFetch (s.pc + 1#16) .operand) t)) ∨
       (op = 0xA9#8 ∧ s.pc.toNat + 1 < s.image.progLen ∧ s.pc = 0xFFFE#16 ∧
          step s = .next (raise (.pcOverflow .operand) t)) ∨
       (op = 0xA9#8 ∧ s.pc.toNat + 1 < s.image.progLen ∧ s.pc ≠ 0xFFFE#16 ∧
          step s = .next (((s.setPc (s.pc + 2#16)).setA (s.image.read (s.pc.toNat + 1))).observe (s.image.read (s.pc.toNat + 1)))) ∨
       (op = 0xAA#8 ∧ step s = .next ((t.setX s.a).observe s.a)) ∨
       (op = 0xE8#8 ∧ step s = .next ((t.setX (s.x + 1#8)).observe (s.x + 1#8))) ∨
       (op = 0x00#8 ∧ step s = .next (t.setRunState .halted)))) := by
  rcases fetchInstr_cases s with ⟨h', hf⟩ | ⟨hl, h', hf⟩ | ⟨hl, hp, hc⟩
  · exact .inl ⟨h', step_of_raised hr hf⟩
  · exact .inr (.inl ⟨hl, h', step_of_raised hr hf⟩)
  · refine .inr (.inr ⟨hl, hp, ?_⟩)
    rcases hc with ⟨h1, h2, h3, h4, hf⟩ | ⟨h, h', hf⟩ | ⟨h, h', hf⟩ | ⟨h', hf⟩ | ⟨h', hf⟩ | ⟨h', hf⟩
    · exact .inl ⟨h1, h2, h3, h4, step_of_raised hr hf⟩
    · exact .inr (.inl ⟨h, h', step_of_raised hr hf⟩)
    · have he : s.pc + 1#16 = 0xFFFF#16 ↔ s.pc = 0xFFFE#16 := ⟨fun h => by bv_omega, fun h => by bv_omega⟩
      rcases execLdaImm_cases (s.image.read (s.pc.toNat + 1)) (s.setPc (s.pc + 1#16)) with ⟨hq, hx⟩ | ⟨hq, hx⟩
      · exact .inr (.inr (.inl ⟨h, h', he.1 hq, (step_of_done hr hf).trans hx⟩))
      · refine .inr (.inr (.inr (.inl ⟨h, h', fun hc => hq (he.2 hc), (step_of_done hr hf).trans (hx.trans ?_)⟩)))
        congr 1
        apply State.ext_fields <;> simp [BitVec.add_assoc]
    · exact .inr (.inr (.inr (.inr (.inl ⟨h', step_of_done hr hf⟩))))
    · exact .inr (.inr (.inr (.inr (.inr (.inl ⟨h', step_of_done hr hf⟩)))))
    · exact .inr (.inr (.inr (.inr (.inr (.inr ⟨h', step_of_done hr hf⟩)))))

end Sys2Proof.Machine
end

