-- ==== Sys2Proof/Laws/HostPort.lean ====
section
/-! SUPPORT. When the host's interactions are taken (60_exceptions.md R110). -/

namespace Sys2Proof.Machine

@[simp] theorem HostMove.allowed_running (m : HostMove) : m.allowed .running = false := by
  cases m <;> rfl

/-- Outside `Running` every interaction but cancelling is taken. -/
theorem HostMove.allowed_quiet {m : HostMove} {r : RunState} (hr : r ≠ .running) (hm : m ≠ .cancel) : m.allowed r = true := by
  cases r <;> cases m <;> first | rfl | exact absurd rfl hr | exact absurd rfl hm

/-- An interaction that is taken has its effect. -/
theorem hostMove_quiet {m : HostMove} {s : State} (hr : s.runState ≠ .running) (hm : m ≠ .cancel) :
    hostMove m s = m.effect s :=
  if_pos (HostMove.allowed_quiet hr hm)

end Sys2Proof.Machine
end

