-- ==== Sys2Proof/Laws/Memory.lean ====
section
/-! SUPPORT. The laws of the image: reads after a placement, the canonical form, and equal reads as equal data. -/

namespace Sys2Proof.Machine

/-! ### Reading a cell list -/

theorem cellRead_cons_self (i : Nat) (b : Byte) (cs : List Host.Cell) : cellRead i ((i, b) :: cs) = b := by
  simp [cellRead]

theorem cellRead_cons_other {i j : Nat} (b : Byte) (cs : List Host.Cell) (h : i ≠ j) :
    cellRead i ((j, b) :: cs) = cellRead i cs := by
  simp [cellRead, h]

/-- Below a canonical list's first index every byte is unlisted. -/
theorem cellRead_below {lo hi i : Nat} {cs : List Host.Cell} (h : cellsWf lo hi cs = true) (hi' : i < lo) :
    cellRead i cs = Config.unlistedByte := by
  induction cs generalizing lo with
  | nil => rfl
  | cons c cs ih =>
    obtain ⟨j, b⟩ := c
    simp only [cellsWf, Bool.and_eq_true, decide_eq_true_eq] at h
    rw [cellRead_cons_other b cs (by omega)]
    exact ih h.2 (by omega)

theorem cellsWf_mono {lo lo' hi hi' : Nat} {cs : List Host.Cell} (h : cellsWf lo hi cs = true)
    (hlo : lo' ≤ lo) (hhi : hi ≤ hi') : cellsWf lo' hi' cs = true := by
  induction cs generalizing lo lo' with
  | nil => rfl
  | cons c cs ih =>
    obtain ⟨j, b⟩ := c
    simp only [cellsWf, Bool.and_eq_true, decide_eq_true_eq] at h ⊢
    exact ⟨⟨⟨by omega, by omega⟩, h.1.2⟩, ih h.2 (le_refl _)⟩

/-! ### Placing a byte -/

theorem cellRead_cellCons {lo hi i : Nat} {cs : List Host.Cell} (b : Byte) (h : cellsWf lo hi cs = true) (hi' : i < lo)
    (k : Nat) : cellRead k (cellCons i b cs) = if k = i then b else cellRead k cs := by
  unfold cellCons
  by_cases hb : b = Config.unlistedByte
  · by_cases hk : k = i
    · simp [hb, hk, cellRead_below h hi']
    · simp [hb, hk]
  · by_cases hk : k = i
    · simp [hb, hk, cellRead]
    · simp [hb, hk, cellRead]

theorem cellsWf_cellCons {lo hi i : Nat} {cs : List Host.Cell} (b : Byte) (h : cellsWf (i + 1) hi cs = true) (hlo : lo ≤ i)
    (hhi : i < hi) : cellsWf lo hi (cellCons i b cs) = true := by
  unfold cellCons
  split
  · exact cellsWf_mono h (by omega) (le_refl _)
  · simp_all [cellsWf]

/-- A placed byte is read back, and every other index reads as before. -/
theorem cellRead_cellWrite {lo hi : Nat} {cs : List Host.Cell} (h : cellsWf lo hi cs = true) (i : Nat) (b : Byte) (k : Nat) :
    cellRead k (cellWrite i b cs) = if k = i then b else cellRead k cs := by
  induction cs generalizing lo with
  | nil => exact cellRead_cellCons b (lo := i + 1) (hi := hi) rfl (by omega) k
  | cons c cs ih =>
    obtain ⟨j, d⟩ := c
    have hwf := h
    simp only [cellsWf, Bool.and_eq_true, decide_eq_true_eq] at h
    unfold cellWrite
    split
    · rename_i hij
      have : cellsWf j hi ((j, d) :: cs) = true := by
        simp [cellsWf, h.1.1.2, h.1.2, h.2]
      exact cellRead_cellCons b this hij k
    · split
      · rename_i _ hij
        subst hij
        rw [cellRead_cellCons b h.2 (by omega) k]
        by_cases hk : k = i <;> simp [hk, cellRead]
      · rename_i hlt hne
        by_cases hk : k = j
        · subst hk
          simp [cellRead, Ne.symm hne]
        · simp [cellRead, hk, ih h.2]

theorem cellsWf_cellWrite {lo hi : Nat} {cs : List Host.Cell} (h : cellsWf lo hi cs = true) {i : Nat} (b : Byte)
    (hlo : lo ≤ i) (hhi : i < hi) : cellsWf lo hi (cellWrite i b cs) = true := by
  induction cs generalizing lo with
  | nil => exact cellsWf_cellCons b rfl hlo hhi
  | cons c cs ih =>
    obtain ⟨j, d⟩ := c
    simp only [cellsWf, Bool.and_eq_true, decide_eq_true_eq] at h
    unfold cellWrite
    split
    · refine cellsWf_cellCons b ?_ hlo hhi
      simp only [cellsWf, Bool.and_eq_true, decide_eq_true_eq]
      exact ⟨⟨⟨by omega, h.1.1.2⟩, h.1.2⟩, h.2⟩
    · split
      · rename_i _ hij
        subst hij
        exact cellsWf_cellCons b h.2 hlo hhi
      · simp only [cellsWf, Bool.and_eq_true, decide_eq_true_eq]
        exact ⟨h.1, ih h.2 (by omega)⟩

/-- Read after a placement in an image. -/
theorem Memory.read_place {m : Memory} (h : m.wf = true) (i : Nat) (b : Byte) (k : Nat) :
    (m.place i b).read k = if k = i then b else m.read k :=
  cellRead_cellWrite h i b k

theorem Memory.place_progLen (m : Memory) (i : Nat) (b : Byte) :
    (m.place i b).progLen = if m.progLen ≤ i then i + 1 else m.progLen := rfl

/-- Placing a byte keeps the canonical form. -/
theorem Memory.place_wf {m : Memory} (h : m.wf = true) (i : Nat) (b : Byte) : (m.place i b).wf = true := by
  unfold Memory.wf at h ⊢
  refine cellsWf_cellWrite (cellsWf_mono h (le_refl _) ?_) b (Nat.zero_le _) ?_ <;>
    (rw [Memory.place_progLen]; split <;> omega)

theorem Memory.placeAll_wf {m : Memory} (h : m.wf = true) (i : Nat) (bs : List Byte) : (m.placeAll i bs).wf = true := by
  induction bs generalizing m i with
  | nil => exact h
  | cons b bs ih => exact ih (Memory.place_wf h i b) (i + 1)

/-! ### The image made of a byte sequence -/

theorem cellsWf_cellsOf (i : Nat) (bs : List Byte) : cellsWf i (i + bs.length) (cellsOf i bs) = true := by
  induction bs generalizing i with
  | nil => rfl
  | cons b bs ih =>
    refine cellsWf_cellCons b ?_ (le_refl _) (by simp)
    have := ih (i + 1)
    rwa [show i + (b :: bs).length = i + 1 + bs.length by simp; omega]

/-- An image made of bytes is canonical. -/
theorem Memory.ofBytes_wf (bs : List Byte) : (Memory.ofBytes bs).wf = true := by
  simpa [Memory.wf, Memory.ofBytes] using cellsWf_cellsOf 0 bs

theorem cellRead_cellsOf (i k : Nat) (bs : List Byte) : cellRead (i + k) (cellsOf i bs) = bs.getD k Config.unlistedByte := by
  induction bs generalizing i k with
  | nil => rfl
  | cons b bs ih =>
    rw [cellsOf, cellRead_cellCons b (cellsWf_cellsOf (i + 1) bs) (by omega)]
    cases k with
    | zero => simp
    | succ k =>
      have := ih (i + 1) k
      rw [show i + 1 + k = i + (k + 1) by omega] at this
      simp [this]

/-- `prog[i]` of an image made of bytes is its `i`-th byte (R8). -/
theorem Memory.read_ofBytes (bs : List Byte) (k : Nat) : (Memory.ofBytes bs).read k = bs.getD k Config.unlistedByte := by
  simpa [Memory.read, Memory.ofBytes] using cellRead_cellsOf 0 k bs

theorem Memory.ofBytes_progLen (bs : List Byte) : (Memory.ofBytes bs).progLen = bs.length := rfl

/-- The image at reset is canonical. -/
theorem State.reset_image_wf : State.reset.image.wf = true := rfl

/-! ### Equal reads are equal data -/

/-- Two canonical cell lists that read alike are one list. -/
theorem cells_ext {lo hi : Nat} {cs ds : List Host.Cell} (hc : cellsWf lo hi cs = true) (hd : cellsWf lo hi ds = true)
    (h : ∀ i, cellRead i cs = cellRead i ds) : cs = ds := by
  induction cs generalizing lo ds with
  | nil =>
    cases ds with
    | nil => rfl
    | cons d ds =>
      obtain ⟨j, b⟩ := d
      simp only [cellsWf, Bool.and_eq_true, decide_eq_true_eq] at hd
      have := h j
      rw [cellRead_cons_self] at this
      exact absurd this.symm hd.1.2
  | cons c cs ih =>
    obtain ⟨i, a⟩ := c
    have hc' := hc
    simp only [cellsWf, Bool.and_eq_true, decide_eq_true_eq] at hc
    cases ds with
    | nil =>
      have := h i
      rw [cellRead_cons_self] at this
      exact absurd this hc.1.2
    | cons d ds =>
      obtain ⟨j, b⟩ := d
      have hd' := hd
      simp only [cellsWf, Bool.and_eq_true, decide_eq_true_eq] at hd
      have hij : i = j := by
        rcases Nat.lt_trichotomy i j with hlt | heq | hgt
        · have := h i
          rw [cellRead_cons_self, cellRead_cons_other b ds (by omega), cellRead_below hd.2 (by omega)] at this
          exact absurd this hc.1.2
        · exact heq
        · have := h j
          rw [cellRead_cons_self, cellRead_cons_other a cs (by omega), cellRead_below hc.2 (by omega)] at this
          exact absurd this.symm hd.1.2
      subst hij
      have hab : a = b := by simpa [cellRead_cons_self] using h i
      subst hab
      have htail : cs = ds := by
        refine ih hc.2 hd.2 fun k => ?_
        by_cases hk : k = i
        · rw [hk, cellRead_below hc.2 (by omega), cellRead_below hd.2 (by omega)]
        · simpa [cellRead, hk] using h k
      rw [htail]

/-- Two canonical images of one length that read alike are equal data. -/
theorem Memory.ext_read {m n : Memory} (hm : m.wf = true) (hn : n.wf = true) (hl : m.progLen = n.progLen)
    (h : ∀ i, m.read i = n.read i) : m = n := by
  obtain ⟨l, cs⟩ := m
  obtain ⟨k, ds⟩ := n
  simp only at hl
  subst hl
  exact congrArg _ (cells_ext hm hn h)

end Sys2Proof.Machine
end

