-- ==== Sys2Proof/Laws/PerInstr.lean ====
section
/-! SUPPORT. Statements for all instructions, one lemma per constructor. -/

namespace Sys2Proof.Laws.EncodedLength

/-- An encoded well-formed instruction is as long as its opcode says: one or two bytes (R53, R61). -/
def Statement (i : Instr) : Prop :=
  i.wellFormed = true ∧ ∃ op operands, encode i = op :: operands ∧ (encode i).length = opcodeLength op ∧
    (encode i).length ≤ 2

theorem ldaImm (imm8 : Byte) : Statement (.ldaImm imm8) := ⟨rfl, 0xA9#8, [imm8], rfl, rfl, Nat.le_refl 2⟩
theorem tax : Statement .tax := ⟨rfl, 0xAA#8, [], rfl, rfl, by decide⟩
theorem inx : Statement .inx := ⟨rfl, 0xE8#8, [], rfl, rfl, by decide⟩
theorem halt : Statement .halt := ⟨rfl, 0x00#8, [], rfl, rfl, by decide⟩

end Sys2Proof.Laws.EncodedLength
end

