-- ==== Sys2Proof/Tests/Slice0.lean ====
section
/-! SUPPORT. Tests against spec/95_test_vectors.md (the vector is named at each test), the well-formedness smoke tests, and
for every statement with hypotheses a concrete state that meets them. -/

open Sys2Proof Sys2Proof.Machine

namespace Sys2Proof.Tests

/-- The next state of an outcome, if it is one. -/
def after : Host.Outcome State Fault Refusal → Option State
  | .next t => some t
  | .fault _ => none
  | .refused _ => none

/-- A running block with an image made of bytes, at index 0. -/
def at0 (a x p : Byte) (bytes : List Byte) : State :=
  { State.reset with a := a, x := x, p := p, runState := .running, image := Memory.ofBytes bytes }

/-- A running block at an index of a sparse image. -/
def atIndex (pc : Index) (progLen : Nat) (cells : List Host.Cell) : State :=
  { State.reset with pc := pc, runState := .running, image := ⟨progLen, cells⟩ }

/-- What a test looks at: the registers, `PC` and the engine state. -/
def look (o : Host.Outcome State Fault Refusal) : Option (Byte × Byte × Byte × Index × RunState) :=
  (after o).map fun t => (t.a, t.x, t.p, t.pc, t.runState)

/-! ### Decoding: words written out from the opcode table (30_encoding.md R58) -/

theorem test_decode_ldaImm : decode [0b10101001#8, 0b11000000#8, 0xAA#8] = .instr (.ldaImm 0xC0#8) [0xAA#8] := by decide
theorem test_decode_tax : decode [0b10101010#8] = .instr .tax [] := by decide
theorem test_decode_inx : decode [0b11101000#8] = .instr .inx [] := by decide
theorem test_decode_halt : decode [0b00000000#8, 0xFF#8] = .instr .halt [0xFF#8] := by decide
theorem test_decode_noBytes : decode [] = .rejected .noBytes := by decide
theorem test_decode_truncated : decode [0xA9#8] = .rejected (.missingOperand 0xA9#8) := by decide

/-- The undefined rows of the vectors' decoder table. -/
theorem test_decode_undefined :
    ([0x01#8, 0xA8#8, 0xAB#8, 0xE7#8, 0xE9#8, 0xFF#8, 0xA5#8, 0x8A#8].all fun op =>
      decide (decode [op, 0x00#8] = .rejected (.undefinedOpcode op))) = true := by decide

/-- Table words, bit 0 the first byte's least significant bit: `LDA #$05`, `TAX` with 8 bits, `LDA` with its operand bits absent. -/
theorem test_decodeTableWord :
    decodeTableWord 16 0x05A9 = some (.ldaImm 0x05#8) ∧ decodeTableWord 8 0xAA = some .tax ∧
      decodeTableWord 8 0xA9 = some (.ldaImm 0x00#8) ∧ decodeTableWord 8 0x01 = none := by decide

/-- Program 1 of the vectors, from its source text's statements. -/
theorem test_assemble :
    assemble [⟨some "start", some (.instr (.ldaImm 0xC0#8)), none⟩, ⟨none, some (.instr .tax), some "copy"⟩,
      ⟨none, some (.instr .inx), none⟩, ⟨none, some (.bytes 0x00#8 []), none⟩] =
      [0xA9#8, 0xC0#8, 0xAA#8, 0xE8#8, 0x00#8] := by decide

/-- The notation of 30_encoding.md R64: `$` and two hexadecimal digits, the label first. -/
theorem test_text :
    AsmLine.text ⟨some "start", some (.instr (.ldaImm 0xC0#8)), none⟩ = "start: LDA #$C0" ∧
      AsmStatement.text (.bytes 0x0A#8 [0xFF#8]) = ".byte $0A, $FF" ∧ AsmStatement.text (.ldaDecimal 0x0A#8) = "LDA #10" := by
  decide

/-! ### The flag-update unit: rows 0x00, 0xFF, 0x01 of the vectors' table -/

theorem test_flagsNZ :
    [0x00#8, 0x01#8, 0x7F#8, 0x80#8, 0xFF#8].map (flagsNZ 0x00#8) = [0x02#8, 0x00#8, 0x00#8, 0x80#8, 0x80#8] ∧
      [0x00#8, 0x01#8, 0x7F#8, 0x80#8, 0xFF#8].map (flagsNZ 0xFF#8) = [0x7F#8, 0x7D#8, 0x7D#8, 0xFD#8, 0xFD#8] ∧
      [0x00#8, 0x01#8, 0x7F#8, 0x80#8, 0xFF#8].map (flagsNZ 0x01#8) = [0x03#8, 0x01#8, 0x01#8, 0x81#8, 0x81#8] := by decide

/-! ### One step of each instruction -/

/-- Vector L6. -/
theorem test_ldaImm_zero_keeps_reserved :
    look (step (at0 0x12#8 0x34#8 0xFF#8 [0xA9#8, 0x00#8])) = some (0x00#8, 0x34#8, 0x7F#8, 2#16, .running) := by decide

/-- Vector L12: an operand at 0xFFFF. -/
theorem test_ldaImm_counter_limit :
    (after (step { atIndex 0xFFFE#16 65536 [(65534, 0xA9#8)] with a := 0x11#8 })).map (fun t => (t.a, t.p, t.pc, t.runState, t.fault)) =
      some (0x11#8, 0x00#8, 0xFFFF#16, .faulted, ⟨.pcOverflow, 0x00#8, 0xFFFF#16, .operand⟩) := by decide

/-- Vector L13: the same one byte shorter, so the operand fetch fails first. -/
theorem test_ldaImm_truncated :
    (after (step { atIndex 0xFFFE#16 65535 [(65534, 0xA9#8)] with a := 0x11#8 })).map (fun t => (t.a, t.pc, t.runState, t.fault)) =
      some (0x11#8, 0xFFFF#16, .faulted, ⟨.outOfRangeFetch, 0x00#8, 0xFFFF#16, .operand⟩) := by decide

/-- Vector T3. -/
theorem test_tax : look (step (at0 0x7F#8 0xFF#8 0x80#8 [0xAA#8])) = some (0x7F#8, 0x7F#8, 0x00#8, 1#16, .running) := by decide

/-- Vector T1: `TAX` right after reset sets `Z`. -/
theorem test_tax_after_reset :
    look (step (State.reset.withFetchWord 8 0xAA)) = some (0x00#8, 0x00#8, 0x02#8, 1#16, .running) := by decide

/-- Vector I7: the wrap, with bit 0 of `P` untouched. -/
theorem test_inx_wraps : look (step (at0 0x55#8 0xFF#8 0x81#8 [0xE8#8])) = some (0x55#8, 0x00#8, 0x03#8, 1#16, .running) := by decide

/-- Vector I3: the sign boundary. -/
theorem test_inx_sign : look (step (at0 0x00#8 0x7F#8 0x00#8 [0xE8#8])) = some (0x00#8, 0x80#8, 0x80#8, 1#16, .running) := by decide

/-- Vector H2. -/
theorem test_halt : look (step (at0 0x12#8 0x34#8 0x56#8 [0x00#8])) = some (0x12#8, 0x34#8, 0x56#8, 1#16, .halted) := by decide

/-- The last step of vector H3: a `HALT` at 0xFFFF does not halt. -/
theorem test_halt_counter_limit :
    (after (step (atIndex 0xFFFF#16 65536 []))).map (fun t => (t.pc, t.runState, t.fault)) =
      some (0xFFFF#16, .faulted, ⟨.pcOverflow, 0x00#8, 0xFFFF#16, .opcode⟩) := by decide

/-- Vector U6: an undefined opcode at index 2. -/
theorem test_undefined :
    (after (step { atIndex 0x0002#16 4 [(2, 0xFF#8)] with a := 0x05#8, x := 0x06#8 })).map
        (fun t => (t.a, t.x, t.p, t.pc, t.runState, t.fault)) =
      some (0x05#8, 0x06#8, 0x00#8, 3#16, .faulted, ⟨.unknownOpcode, 0xFF#8, 0x0002#16, .opcode⟩) := by decide

/-- Vectors FP1 to FP4: the priority of faults. -/
theorem test_fault_priority :
    (after (step (at0 0#8 0#8 0#8 []))).map (fun t => (t.pc, t.fault)) =
        some (0#16, ⟨.outOfRangeFetch, 0x00#8, 0x0000#16, .opcode⟩) ∧
      (after (step (atIndex 0xFFFF#16 65536 [(65535, 0xFF#8)]))).map (fun t => (t.pc, t.fault)) =
        some (0xFFFF#16, ⟨.pcOverflow, 0x00#8, 0xFFFF#16, .opcode⟩) ∧
      (after (step (atIndex 0xFFFF#16 0xFFFF []))).map (fun t => (t.pc, t.fault)) =
        some (0xFFFF#16, ⟨.outOfRangeFetch, 0x00#8, 0xFFFF#16, .opcode⟩) ∧
      (after (step (at0 0#8 0#8 0#8 [0xFF#8]))).map (fun t => (t.pc, t.fault)) =
        some (1#16, ⟨.unknownOpcode, 0xFF#8, 0x0000#16, .opcode⟩) := by decide

/-- Vectors R1 and R3 of run entry. -/
theorem test_run_entry :
    (hostMove .runReq { at0 0xC0#8 0xC1#8 0x80#8 [] with pc := 5#16, runState := .halted }) = at0 0xC0#8 0xC1#8 0x80#8 [] ∧
      hostMove .runReq { at0 0xC0#8 0xC1#8 0x80#8 [] with pc := 5#16 } = { at0 0xC0#8 0xC1#8 0x80#8 [] with pc := 5#16 } := by decide

/-- The placed word is run as the first instruction after reset. -/
theorem test_withFetchWord_ldaImm :
    look (step (State.reset.withFetchWord 16 0x80A9)) = some (0x80#8, 0x00#8, 0x80#8, 2#16, .running) := by decide

/-- 10_state.md R36: the host may write `PC` between runs, and a run overwrites it with 0; while `Running` it is refused. -/
theorem test_host_writes_pc :
    (hostMove (.writePc 0x1234#16) State.reset).pc = 0x1234#16 ∧
      (hostMove .runReq (hostMove (.writePc 0x1234#16) State.reset)).pc = 0x0000#16 ∧
      hostMove (.writePc 0x1234#16) (at0 0#8 0#8 0#8 []) = at0 0#8 0#8 0#8 [] := by decide

/-! ### Well-formedness smoke tests: one ill-formed term for each check -/

theorem test_wf_instructions : [Instr.ldaImm 0xFF#8, .tax, .inx, .halt].all Instr.wellFormed = true := by decide
theorem test_wf_refuses_disorder : (Memory.mk 4 [(2, 0x01#8), (1, 0x01#8)]).wf = false := by decide
theorem test_wf_refuses_repeat : (Memory.mk 4 [(1, 0x01#8), (1, 0x02#8)]).wf = false := by decide
theorem test_wf_refuses_outside : (Memory.mk 4 [(4, 0x01#8)]).wf = false := by decide
theorem test_wf_refuses_unlisted_byte : (Memory.mk 4 [(1, 0x00#8)]).wf = false := by decide
theorem test_wf_accepts : (Memory.mk 4 [(1, 0x01#8), (3, 0xFF#8)]).wf = true := by decide
theorem test_record_refused :
    FaultRecord.wf ⟨.none, 0x00#8, 0x0001#16, .opcode⟩ = false ∧ FaultRecord.wf ⟨.unknownOpcode, 0xFF#8, 0#16, .operand⟩ = false ∧
      FaultRecord.wf ⟨.outOfRangeFetch, 0x01#8, 0#16, .opcode⟩ = false ∧
      FaultRecord.wf ⟨.pcOverflow, 0x01#8, 0xFFFF#16, .opcode⟩ = false ∧
      FaultRecord.wf ⟨.pcOverflow, 0x00#8, 0#16, .opcode⟩ = false := by decide
theorem test_fault_pc_refused :
    faultPcOk ⟨.unknownOpcode, 0xFF#8, 2#16, .opcode⟩ 2#16 = false ∧
      faultPcOk ⟨.unknownOpcode, 0xFF#8, 0xFFFF#16, .opcode⟩ 0#16 = false ∧
      faultPcOk ⟨.outOfRangeFetch, 0x00#8, 2#16, .opcode⟩ 3#16 = false ∧
      faultPcOk ⟨.pcOverflow, 0x00#8, 0xFFFF#16, .opcode⟩ 0#16 = false := by decide

/-! ### Witnesses: a concrete state for the hypotheses of each statement, and for each of its clauses -/

/-- Running at 0xFFFE, the last index an instruction can complete at, with one opcode there. -/
def atLast (op : Byte) : State := atIndex 0xFFFE#16 65536 (cellCons 65534 op [])

/-- Running at 0xFFFF with one byte there. -/
def atLimit (op : Byte) : State := atIndex 0xFFFF#16 65536 (cellCons 65535 op [])

theorem witness_UndefinedValuesAreTheThreeRanges :
    [0x01#8, 0xA8#8, 0xAB#8, 0xE7#8, 0xE9#8, 0xFF#8].all
      (fun op => decide ((describe op).cls = .undefined ∧ (atLast op).atOpcode op)) = true := by decide

theorem witness_LdaImmCompletes : (atLast 0xA9#8).pc ≠ 0xFFFF#16 := by decide
theorem witness_LdaImmTrapsAtCounterLimit : (atLimit 0xA9#8).pc = 0xFFFF#16 := by decide

/-- The three clauses of `LdaImmStep`, each where it meets the next. -/
theorem witness_LdaImmStep :
    ((at0 0#8 0#8 0#8 [0xA9#8]).atOpcode 0xA9#8 ∧ (at0 0#8 0#8 0#8 [0xA9#8]).image.progLen ≤ 1) ∧
      ((atLast 0xA9#8).atOpcode 0xA9#8 ∧ ¬(atLast 0xA9#8).image.progLen ≤ (atLast 0xA9#8).pc.toNat + 1) ∧
      ((atIndex 0xFFFD#16 65535 [(65533, 0xA9#8)]).atOpcode 0xA9#8 ∧
        ¬(atIndex 0xFFFD#16 65535 [(65533, 0xA9#8)]).image.progLen ≤ 65534) := by decide

theorem witness_TaxStep : (atLast 0xAA#8).atOpcode 0xAA#8 ∧ (at0 0#8 0#8 0#8 [0xAA#8]).atOpcode 0xAA#8 := by decide
theorem witness_InxStep : (atLast 0xE8#8).atOpcode 0xE8#8 ∧ (at0 0#8 0xFF#8 0#8 [0xE8#8]).atOpcode 0xE8#8 := by decide

theorem witness_HaltStep :
    (atLast 0x00#8).atOpcode 0x00#8 ∧
      (atIndex 0xFFFF#16 65536 []).runState = .running ∧ (atIndex 0xFFFF#16 65536 []).pc = 0xFFFF#16 ∧
      (atIndex 0xFFFF#16 65536 []).pc.toNat < (atIndex 0xFFFF#16 65536 []).image.progLen ∧
      (atIndex 0xFFFF#16 65536 []).image.read 65535 = 0x00#8 := by decide

theorem witness_UndefinedOpcodeStep :
    (atLast 0x01#8).atOpcode 0x01#8 ∧ (at0 0#8 0#8 0#8 [0xFF#8]).atOpcode 0xFF#8 ∧
      (atLimit 0xFF#8).runState = .running ∧ (atLimit 0xFF#8).pc = 0xFFFF#16 ∧
      (atLimit 0xFF#8).pc.toNat < (atLimit 0xFF#8).image.progLen ∧
      (describe ((atLimit 0xFF#8).image.read (atLimit 0xFF#8).pc.toNat)).cls = .undefined := by decide

theorem witness_StepRunsDecodedInstruction :
    (atLast 0xA9#8).runState = .running ∧ (atLast 0xA9#8).pc ≠ 0xFFFF#16 ∧ Instr.wellFormed (.ldaImm 0x00#8) = true ∧
      decode (atLast 0xA9#8).codeBytes = .instr (.ldaImm 0x00#8) [] ∧
      decode (at0 0#8 0#8 0#8 [0xAA#8, 0xE8#8]).codeBytes = .instr .tax [0xE8#8] ∧
      decode (at0 0#8 0#8 0#8 [0xE8#8]).codeBytes = .instr .inx [] ∧
      decode (at0 0#8 0#8 0#8 [0x00#8]).codeBytes = .instr .halt [] := by decide

theorem witness_StepOnRejectedBytesRaises :
    decode (at0 0#8 0#8 0#8 []).codeBytes = .rejected .noBytes ∧
      decode (at0 0#8 0#8 0#8 [0xFF#8]).codeBytes = .rejected (.undefinedOpcode 0xFF#8) ∧
      decode (at0 0#8 0#8 0#8 [0xA9#8]).codeBytes = .rejected (.missingOperand 0xA9#8) ∧
      (at0 0#8 0#8 0#8 []).runState = .running ∧ (at0 0#8 0#8 0#8 []).pc ≠ 0xFFFF#16 := by decide

theorem witness_FetchChecksTheBound :
    (atLast 0#8).image.progLen ≤ 65536 ∧ (0xFFFF#16).toNat < (atLast 0#8).image.progLen ∧
      (Memory.ofBytes [0x01#8]).progLen ≤ (1#16).toNat ∧ State.reset.image.progLen = 0 := by decide

theorem witness_AdvanceNeverWraps : (atLast 0#8).pc.toNat < 65535 ∧ (atLimit 0#8).pc.toNat = 65535 := by decide

theorem witness_OpcodeFetchPastImageFaults :
    (at0 0#8 0#8 0#8 []).runState = .running ∧ (at0 0#8 0#8 0#8 []).image.progLen ≤ (at0 0#8 0#8 0#8 []).pc.toNat ∧
      (atIndex 0xFFFF#16 0xFFFF []).image.progLen ≤ (atIndex 0xFFFF#16 0xFFFF []).pc.toNat := by decide

/-- Each row of the priority table applies to some running state, and none to another. -/
theorem witness_FaultPriorityTable :
    faultOfStep (at0 0#8 0#8 0#8 []) = some (.outOfRangeFetch 0#16 .opcode) ∧
      faultOfStep (atLimit 0xFF#8) = some (.pcOverflow .opcode) ∧
      faultOfStep (at0 0#8 0#8 0#8 [0xFF#8]) = some (.unknownOpcode 0xFF#8 0#16) ∧
      faultOfStep (at0 0#8 0#8 0#8 [0xA9#8]) = some (.outOfRangeFetch 1#16 .operand) ∧
      faultOfStep (atLast 0xA9#8) = some (.pcOverflow .operand) ∧ faultOfStep (at0 0#8 0#8 0#8 [0xA9#8, 0x05#8]) = none := by decide

/-- A faulted next state, for the statements about steps that end `Faulted`. -/
theorem witness_PcOverflowNeedsLongImage :
    (after (step (atLimit 0xE8#8))).map (fun t => (t.runState, t.fault.code)) = some (.faulted, .pcOverflow) ∧
      (atLimit 0xE8#8).runState = .running := by decide

theorem witness_FaultingStepLeavesRegisters :
    (after (step (at0 0x05#8 0x06#8 0x07#8 [0xA9#8]))).map (fun t => t.runState) = some .faulted ∧
      (at0 0x05#8 0x06#8 0x07#8 [0xA9#8]).runState = .running := by decide

/-- States that meet the invariant, with a step that goes on, halts and faults; the last has a `PC` the host wrote. -/
theorem witness_StepKeepsInv :
    State.reset.Inv ∧ State.reset.PcInv ∧ (at0 0#8 0#8 0#8 [0xA9#8, 0x05#8]).Inv ∧ (atLast 0xA9#8).Inv ∧
      (atLast 0xA9#8).runState = .running ∧
      ((after (step (atLast 0xA9#8))).all fun t => decide (t.Inv ∧ t.PcInv)) = true ∧
      ((after (step (at0 0#8 0#8 0#8 [0x00#8]))).all fun t => decide (t.Inv ∧ t.PcInv)) = true ∧
      (hostMove (.writePc 5#16) State.reset).Inv ∧ ¬(hostMove (.writePc 5#16) State.reset).PcInv := by decide

theorem witness_HostMovesKeepInv :
    State.reset.Inv ∧ State.reset.PcInv ∧ (atLast 0x00#8).Inv ∧ HostMove.isPcWrite .rst = false := by decide

/-- A state with a `PC` the host wrote, reached by all moves, and a running one reached without such a write. -/
theorem witness_ReachableStatesMeetInv :
    Reachable (fun _ => true) ((HostMove.writePc 5#16).effect State.reset) ∧
      Reachable (fun m => !m.isPcWrite) (HostMove.runReq.effect ((HostMove.supplyImage [0xAA#8]).effect State.reset)) :=
  ⟨.move _ _ .reset (.host (.writePc 5#16) _ rfl rfl),
    .move _ _ (.move _ _ .reset (.host (.supplyImage [0xAA#8]) _ rfl rfl)) (.host .runReq _ rfl rfl)⟩

theorem witness_OnlyLdaWritesAOnlyTaxReadsIt :
    (after (step (at0 0x00#8 0#8 0#8 [0xA9#8, 0x05#8]))).map (fun t => t.a) = some 0x05#8 ∧
      (after (exec (.ldaImm 0x05#8) State.reset)).map (fun t => t.a) = some 0x05#8 ∧ Instr.inx ≠ .tax := by decide

theorem witness_OnlyTaxAndInxWriteXOnlyInxReadsIt :
    (after (step (at0 0x07#8 0#8 0#8 [0xAA#8]))).map (fun t => t.x) = some 0x07#8 ∧
      (after (step (at0 0#8 0#8 0#8 [0xE8#8]))).map (fun t => t.x) = some 0x01#8 ∧
      (after (exec .tax (at0 0x07#8 0#8 0#8 []))).map (fun t => t.x) = some 0x07#8 ∧ Instr.tax ≠ .inx := by decide

theorem witness_FlagsWrittenByDataInstructionsReadByNone :
    (atLast 0#8).pc ≠ 0xFFFF#16 ∧ (after (exec (.ldaImm 0x80#8) (atLast 0#8))).map (fun t => t.p) = some 0x80#8 ∧
      (after (exec .tax State.reset)).map (fun t => t.p) = some 0x02#8 ∧
      (after (exec .inx (at0 0#8 0xFF#8 0#8 []))).map (fun t => t.p) = some 0x02#8 ∧
      (after (step (at0 0#8 0#8 0#8 [0xA9#8, 0x80#8]))).map (fun t => t.p) = some 0x80#8 := by decide

theorem witness_ReservedBitsAreKept :
    (after (step (at0 0#8 0#8 0x7D#8 [0xE8#8]))).isSome = true ∧ (after (exec .inx State.reset)).isSome = true ∧
      State.reset.runState ≠ .running := by decide

/-- Each flag-updating instruction gives a result; `HALT` gives none, with flags that reflect a value before it. -/
theorem witness_FlagsReflectTheLastResult :
    resultOfStep (at0 0#8 0#8 0#8 [0xA9#8, 0x05#8]) = some 0x05#8 ∧ resultOfStep (at0 0x07#8 0#8 0#8 [0xAA#8]) = some 0x07#8 ∧
      resultOfStep (at0 0#8 0xFF#8 0#8 [0xE8#8]) = some 0x00#8 ∧ resultOfStep (at0 0#8 0#8 0x02#8 [0x00#8]) = none ∧
      FlagsReflect (at0 0#8 0#8 0x02#8 [0x00#8]).p 0x00#8 := by decide

theorem witness_PcOnlyAdvances :
    (after (step (at0 0#8 0#8 0#8 [0xA9#8, 0x05#8]))).map (fun t => t.pc) = some 2#16 ∧
      (after (step (atLast 0xE8#8))).map (fun t => (t.pc, t.runState)) = some (0xFFFF#16, .running) := by decide

theorem witness_ImageFixedDuringRun :
    (after (step (at0 0#8 0#8 0#8 [0xAA#8]))).isSome = true ∧ (at0 0#8 0#8 0#8 [0xAA#8]).runState = .running ∧
      State.reset.runState ≠ .running ∧ 0 < [0xAA#8].length := by decide

theorem witness_QuietStatesDoNotMove :
    State.reset.runState ≠ .running ∧ ({ State.reset with runState := .halted } : State).runState ≠ .running ∧
      ({ State.reset with runState := .faulted } : State).runState ≠ .running := by decide

theorem witness_OnlyHaltEndsARunWell :
    (at0 0#8 0#8 0#8 [0x00#8]).atOpcode 0x00#8 ∧
      (after (step (at0 0#8 0#8 0#8 [0x00#8]))).bind (fun t => t.result) = some .halt ∧
      (after (step (at0 0#8 0#8 0#8 [0xAA#8]))).bind (fun t => t.result) = some .cont := by decide

theorem witness_DescriptorForetellsStep :
    (at0 0#8 0#8 0#8 [0xAA#8]).atOpcode 0xAA#8 ∧ (after (step (at0 0#8 0#8 0#8 [0xAA#8]))).isSome = true ∧
      (at0 0#8 0#8 0#8 [0xFF#8]).atOpcode 0xFF#8 ∧ (describe 0xFF#8).endsRun = .faulted ∧
      (describe 0x00#8).flagSource = none ∧ (describe 0xA9#8).flagSource = some .a := by decide

theorem witness_EveryRunEndsWithinBound : State.reset.runState ≠ .running := by decide

/-- Two different images that agree below 0x10000. -/
theorem witness_ImageBeyondReachDoesNotMatter :
    Memory.mk 65537 [(65536, 0x01#8)] ≠ (atLast 0x00#8).image ∧
      ∀ i : Nat, i < 65536 →
        ((i < (Memory.mk 65537 [(65536, 0x01#8)]).progLen ↔ i < (atIndex 0#16 65536 []).image.progLen) ∧
          (Memory.mk 65537 [(65536, 0x01#8)]).read i = (atIndex 0#16 65536 []).image.read i) := by
  refine ⟨by decide, fun i hi => ⟨⟨fun _ => hi, fun _ => Nat.lt_succ_of_lt hi⟩, ?_⟩⟩
  simp [Memory.read, atIndex, cellRead, Nat.ne_of_lt hi]

theorem witness_RunRequestStartsARun :
    State.reset.runState ≠ .running ∧ (at0 0#8 0#8 0#8 []).runState = .running := by decide

theorem witness_HostMovesByEngineState :
    State.reset.runState ≠ .running ∧ (at0 0#8 0#8 0#8 []).runState = .running ∧
      (hostMove (.write true false true 0x7D#8) State.reset).p = 0x7D#8 := by decide

/-- Disjoint enables: `A` and `P` against `X`. -/
theorem witness_SetupOrderDoesNotMatter :
    ¬(true = true ∧ false = true) ∧ ¬(false = true ∧ true = true) ∧
      (hostMove (.write true false true 0x11#8) (hostMove (.write false true false 0x22#8) State.reset)).x = 0x22#8 := by decide

theorem witness_PortsShowTheState :
    (hostRead State.reset).isSome = true ∧ hostRead (at0 0#8 0#8 0#8 []) = none ∧
      (at0 0#8 0#8 0#8 []).outputs = (at0 0#8 0#8 0#8 []).outputs ∧
      (atLast 0xA9#8).imgInRange (atLast 0xA9#8).pc = true ∧ (at0 0#8 0#8 0#8 []).imgInRange 0#16 = false := by decide

end Sys2Proof.Tests
end

namespace Sys2Proof.Machine

/-! ## The flag-update unit

The flag-update unit bit by bit (spec/40_engine.md R76 to R78), and what follows for the views of `P`. -/

/-- `FlagsNZ` bit by bit (R76): bit 1 and bit 7 from the result, every other bit from the old status byte. -/
theorem flagsNZ_getElem (p r : Byte) {i : Nat} (hi : i < 8) :
    (flagsNZ p r)[i] = if i = 1 then decide (r = 0x00#8) else if i = 7 then r[7] else p[i] := by
  by_cases hz : r = 0x00#8
  · subst hz
    interval_cases i <;> simp [flagsNZ]
  · cases hn : r[7] <;> interval_cases i <;> simp [flagsNZ, hz, hn]

@[simp] theorem zeroFlag_flagsNZ (p r : Byte) : zeroFlag (flagsNZ p r) = decide (r = 0x00#8) := by
  simp [zeroFlag, flagsNZ_getElem]

@[simp] theorem negativeFlag_flagsNZ (p r : Byte) : negativeFlag (flagsNZ p r) = r.getLsbD 7 := by
  simp [negativeFlag, flagsNZ_getElem]

/-- The flag-update unit sets `Z` and `N` from the result and passes every other bit through (R76 to R78). -/
theorem flagsFrom_flagsNZ (p r : Byte) : FlagsFrom p (flagsNZ p r) r :=
  ⟨zeroFlag_flagsNZ p r, negativeFlag_flagsNZ p r, fun b h1 h7 => by simp [flagsNZ_getElem, h1, h7]⟩

theorem flagsReflect_flagsNZ (p r : Byte) : FlagsReflect (flagsNZ p r) r :=
  ⟨zeroFlag_flagsNZ p r, negativeFlag_flagsNZ p r⟩

/-- The reserved bits pass through the flag-update unit (R78): its mask has 0 exactly at the two flags. -/
@[simp] theorem reservedBits_flagsNZ (p r : Byte) : reservedBits (flagsNZ p r) = reservedBits p := by
  refine BitVec.eq_of_getElem_eq fun i hi => ?_
  simp only [reservedBits, BitVec.getElem_and, flagsNZ_getElem p r hi]
  interval_cases i <;> simp

/-! ## Meanings and steps

What a meaning and a step write and read, said once for every case. -/

/-! ### What a meaning writes -/

theorem exec_ldaImm_atLimit (imm8 : Byte) {s : State} (h : s.pc = 0xFFFF#16) :
    exec (.ldaImm imm8) s = .next (raise (.pcOverflow .operand) s) := by
  simp [exec, execLdaImm, advance_atLimit .operand h]

theorem exec_ldaImm_belowLimit (imm8 : Byte) {s : State} (h : s.pc ≠ 0xFFFF#16) :
    exec (.ldaImm imm8) s = .next (((s.setPc (s.pc + 1#16)).setA imm8).observe imm8) := by
  simp [exec, execLdaImm, advance_belowLimit .operand h]

@[simp] theorem exec_tax (s : State) : exec .tax s = .next ((s.setX s.a).observe s.a) := rfl

@[simp] theorem exec_inx (s : State) : exec .inx s = .next ((s.setX (s.x + 1#8)).observe (s.x + 1#8)) := rfl

@[simp] theorem exec_halt (s : State) : exec .halt s = .next (s.setRunState .halted) := rfl

/-- The registers after a meaning: all three are kept, or one of the data instructions wrote its destination and, from it,
the flags (R73, R79, R83 to R86). -/
theorem exec_registers {i : Instr} {s t : State} (h : exec i s = .next t) :
    (t.a = s.a ∧ t.x = s.x ∧ t.p = s.p) ∨
    (i = .ldaImm t.a ∧ t.x = s.x ∧ t.p = flagsNZ s.p t.a) ∨
    (i = .tax ∧ t.a = s.a ∧ t.x = s.a ∧ t.p = flagsNZ s.p t.x) ∨
    (i = .inx ∧ t.a = s.a ∧ t.x = s.x + 1#8 ∧ t.p = flagsNZ s.p t.x) := by
  cases i with
  | ldaImm imm8 =>
    by_cases hp : s.pc = 0xFFFF#16
    · cases (exec_ldaImm_atLimit imm8 hp).symm.trans h
      exact .inl ⟨rfl, rfl, rfl⟩
    · cases (exec_ldaImm_belowLimit imm8 hp).symm.trans h
      exact .inr (.inl ⟨rfl, rfl, rfl⟩)
  | tax => cases h; exact .inr (.inr (.inl ⟨rfl, rfl, rfl, rfl⟩))
  | inx => cases h; exact .inr (.inr (.inr ⟨rfl, rfl, rfl, rfl⟩))
  | halt => cases h; exact .inl ⟨rfl, rfl, rfl⟩

/-! ### What a meaning reads

A meaning that does not read a register ends, when that register alone starts different, different in that register alone. -/

/-- No meaning but `TAX`'s reads `A` (R18). -/
theorem exec_setA {i : Instr} (hi : i ≠ .tax) (s : State) (v : Byte) :
    ∃ t r, exec i s = .next t ∧ exec i (s.setA v) = .next (t.setA r) := by
  cases i with
  | ldaImm imm8 =>
    by_cases hp : s.pc = 0xFFFF#16
    · exact ⟨_, v, exec_ldaImm_atLimit imm8 hp, exec_ldaImm_atLimit imm8 (s := s.setA v) hp⟩
    · exact ⟨_, imm8, exec_ldaImm_belowLimit imm8 hp, exec_ldaImm_belowLimit imm8 (s := s.setA v) hp⟩
  | tax => exact absurd rfl hi
  | inx => exact ⟨_, v, exec_inx s, exec_inx (s.setA v)⟩
  | halt => exact ⟨_, v, exec_halt s, exec_halt (s.setA v)⟩

/-- No meaning but `INX`'s reads `X` (R19). -/
theorem exec_setX {i : Instr} (hi : i ≠ .inx) (s : State) (v : Byte) :
    ∃ t r, exec i s = .next t ∧ exec i (s.setX v) = .next (t.setX r) := by
  cases i with
  | ldaImm imm8 =>
    by_cases hp : s.pc = 0xFFFF#16
    · exact ⟨_, v, exec_ldaImm_atLimit imm8 hp, exec_ldaImm_atLimit imm8 (s := s.setX v) hp⟩
    · exact ⟨_, v, exec_ldaImm_belowLimit imm8 hp, exec_ldaImm_belowLimit imm8 (s := s.setX v) hp⟩
  | tax => exact ⟨_, s.a, exec_tax s, exec_tax (s.setX v)⟩
  | inx => exact absurd rfl hi
  | halt => exact ⟨_, v, exec_halt s, exec_halt (s.setX v)⟩

/-- No meaning reads `P` (R22, R23) but to pass its reserved bits on. -/
theorem exec_setP (i : Instr) (s : State) (q : Byte) :
    ∃ t r, exec i s = .next t ∧ exec i (s.setP q) = .next (t.setP r) := by
  cases i with
  | ldaImm imm8 =>
    by_cases hp : s.pc = 0xFFFF#16
    · exact ⟨_, q, exec_ldaImm_atLimit imm8 hp, exec_ldaImm_atLimit imm8 (s := s.setP q) hp⟩
    · exact ⟨_, flagsNZ q imm8, exec_ldaImm_belowLimit imm8 hp, exec_ldaImm_belowLimit imm8 (s := s.setP q) hp⟩
  | tax => exact ⟨_, flagsNZ q s.a, exec_tax s, exec_tax (s.setP q)⟩
  | inx => exact ⟨_, flagsNZ q (s.x + 1#8), exec_inx s, exec_inx (s.setP q)⟩
  | halt => exact ⟨_, q, exec_halt s, exec_halt (s.setP q)⟩

/-! ### What a step writes -/

/-- Outside `Running` nothing changes (R68, R109; log entry 4). -/
theorem step_quiet {s : State} (h : s.runState ≠ .running) : step s = .next s := by
  cases hr : s.runState <;> simp_all [step, engineStep]

/-- The registers after a step: all three are kept, or the opcode at `PC` is a data instruction's, which wrote its
destination and, from it, the flags. -/
theorem step_registers {s t : State} (h : step s = .next t) :
    (t.a = s.a ∧ t.x = s.x ∧ t.p = s.p) ∨
    (s.atOpcode 0xA9#8 ∧ t.a = s.image.read (s.pc.toNat + 1) ∧ t.x = s.x ∧ t.p = flagsNZ s.p t.a) ∨
    (s.atOpcode 0xAA#8 ∧ t.a = s.a ∧ t.x = s.a ∧ t.p = flagsNZ s.p t.x) ∨
    (s.atOpcode 0xE8#8 ∧ t.a = s.a ∧ t.x = s.x + 1#8 ∧ t.p = flagsNZ s.p t.x) := by
  by_cases hr : s.runState = .running
  · rcases step_cases hr with ⟨-, hs⟩ | ⟨-, -, hs⟩ | ⟨hl, hp, ⟨-, -, -, -, hs⟩ | ⟨-, -, hs⟩ | ⟨-, -, -, hs⟩ |
      ⟨hop, -, -, hs⟩ | ⟨hop, hs⟩ | ⟨hop, hs⟩ | ⟨-, hs⟩⟩ <;> cases hs.symm.trans h
    · exact .inl ⟨rfl, rfl, rfl⟩
    · exact .inl ⟨rfl, rfl, rfl⟩
    · exact .inl ⟨rfl, rfl, rfl⟩
    · exact .inl ⟨rfl, rfl, rfl⟩
    · exact .inl ⟨rfl, rfl, rfl⟩
    · exact .inr (.inl ⟨⟨hr, hl, hop, hp⟩, rfl, rfl, rfl⟩)
    · exact .inr (.inr (.inl ⟨⟨hr, hl, hop, hp⟩, rfl, rfl, rfl⟩))
    · exact .inr (.inr (.inr ⟨⟨hr, hl, hop, hp⟩, rfl, rfl, rfl⟩))
    · exact .inl ⟨rfl, rfl, rfl⟩
  · cases (step_quiet hr).symm.trans h
    exact .inl ⟨rfl, rfl, rfl⟩

theorem opcodeLength_le_two (op : Byte) : opcodeLength op ≤ 2 := by
  rcases describe_cases op with rfl | rfl | rfl | rfl | ⟨-, -, -, -, hd⟩ <;> simp [opcodeLength, *]

/-- Two below its limit the counter's next but one value is exact, not wrapped (R11, R30). -/
theorem toNat_pc_add_two {pc : Index} (h : pc ≠ 0xFFFF#16) (h' : pc ≠ 0xFFFE#16) :
    (pc + 2#16).toNat = pc.toNat + 2 := by
  bv_omega

/-- `PC` after a step of a `Running` block: a step that faults made no advance or the opcode's, any other one advance per byte
of its instruction (R71, R88). -/
theorem step_pc {s t : State} (hr : s.runState = .running) (h : step s = .next t) :
    (t.runState = .faulted ∧ (t.pc.toNat = s.pc.toNat ∨ t.pc.toNat = s.pc.toNat + 1)) ∨
    t.pc.toNat = s.pc.toNat + opcodeLength (s.image.read s.pc.toNat) := by
  rcases step_cases hr with ⟨-, hs⟩ | ⟨-, -, hs⟩ | ⟨-, hp, ⟨-, -, -, -, hs⟩ | ⟨-, -, hs⟩ | ⟨-, -, -, hs⟩ |
    ⟨hop, -, hlast, hs⟩ | ⟨hop, hs⟩ | ⟨hop, hs⟩ | ⟨hop, hs⟩⟩ <;> cases hs.symm.trans h
  · exact .inl ⟨rfl, .inl rfl⟩
  · exact .inl ⟨rfl, .inl rfl⟩
  · exact .inl ⟨rfl, .inr (toNat_pc_succ hp)⟩
  · exact .inl ⟨rfl, .inr (toNat_pc_succ hp)⟩
  · exact .inl ⟨rfl, .inr (toNat_pc_succ hp)⟩
  · rw [hop]; exact .inr (toNat_pc_add_two hp hlast)
  · rw [hop]; exact .inr (toNat_pc_succ hp)
  · rw [hop]; exact .inr (toNat_pc_succ hp)
  · rw [hop]; exact .inr (toNat_pc_succ hp)

theorem imageKept_of_image_eq {s t : State} (h : t.image = s.image) : ImageKept s t := by
  simp [ImageKept, h]

/-- Everything a step at the opcode of `LDA #imm` can do, in the order of R97: its operand's two faults, then completion. -/
theorem step_cases_ldaImm {s : State} (h : s.atOpcode 0xA9#8) :
    (s.image.progLen ≤ s.pc.toNat + 1 ∧
      step s = .next (raise (.outOfRangeFetch (s.pc + 1#16) .operand) (s.setPc (s.pc + 1#16)))) ∨
    (s.pc.toNat + 1 < s.image.progLen ∧ s.pc = 0xFFFE#16 ∧
      step s = .next (raise (.pcOverflow .operand) (s.setPc (s.pc + 1#16)))) ∨
    (s.pc.toNat + 1 < s.image.progLen ∧ s.pc ≠ 0xFFFE#16 ∧
      step s = .next (((s.setPc (s.pc + 2#16)).setA (s.image.read (s.pc.toNat + 1))).observe
        (s.image.read (s.pc.toNat + 1)))) := by
  obtain ⟨hr, hl, hop, hp⟩ := h
  rcases step_cases hr with ⟨hge, -⟩ | ⟨-, hlim, -⟩ | ⟨-, -, hc⟩
  · omega
  · exact absurd hlim hp
  · simpa [hop] using hc

/-! ## The status byte is not read

No step reads `P` except to pass its reserved bits through (R22 to R24): each sub-step commutes with a change of
`P`, so the fetch stage does, and every meaning then differs in `P` alone (`exec_setP`). -/

/-- A sub-step with its state changed by a function, its value and its outcome kept. -/
def SubStep.mapState {α : Type} (f : State → State) : SubStep α → SubStep α
  | .done v s => .done v (f s)
  | .raised s => .raised (f s)

@[simp] theorem SubStep.mapState_done {α : Type} (f : State → State) (v : α) (s : State) :
    (SubStep.done v s).mapState f = .done v (f s) := rfl

@[simp] theorem SubStep.mapState_raised {α : Type} (f : State → State) (s : State) :
    (SubStep.raised s : SubStep α).mapState f = .raised (f s) := rfl

/-- A sequence commutes with a change of the state when its continuation does. -/
theorem SubStep.andThen_mapState {α β : Type} {f : State → State} {g : α → State → SubStep β}
    (hg : ∀ v s, g v (f s) = (g v s).mapState f) (r : SubStep α) :
    (r.mapState f).andThen g = (r.andThen g).mapState f := by
  cases r with
  | done v s => exact hg v s
  | raised s => rfl

theorem fetch_setP (addr : Index) (k : Access) (s : State) (q : Byte) :
    fetch addr k (s.setP q) = (fetch addr k s).mapState (·.setP q) := by
  rcases fetch_cases addr k s with ⟨h, hf⟩ | ⟨h, hf⟩
  · rw [hf]; exact fetch_outOfRange k h
  · rw [hf]; exact fetch_inRange k h

theorem advance_setP (k : Access) (s : State) (q : Byte) :
    advance k (s.setP q) = (advance k s).mapState (·.setP q) := by
  rcases advance_cases k s with ⟨h, ha⟩ | ⟨h, ha⟩
  · rw [ha]; exact advance_atLimit k h
  · rw [ha]; exact advance_belowLimit k h

theorem fetchOperands_setP (n : Nat) (s : State) (q : Byte) :
    fetchOperands n (s.setP q) = (fetchOperands n s).mapState (·.setP q) := by
  unfold fetchOperands
  split
  · rfl
  · rw [fetchImmediate, fetch_setP]
    exact SubStep.andThen_mapState (fun _ _ => rfl) _

/-- The fetch stage does not read `P`. -/
theorem fetchInstr_setP (s : State) (q : Byte) : fetchInstr (s.setP q) = (fetchInstr s).mapState (·.setP q) := by
  unfold fetchInstr
  rw [State.setP_pc, fetch_setP]
  refine SubStep.andThen_mapState (fun op _ => ?_) _
  rw [advance_setP]
  refine SubStep.andThen_mapState (fun _ _ => ?_) _
  rw [fetchOperands_setP]
  refine SubStep.andThen_mapState (fun operands _ => ?_) _
  cases decode (op :: operands) <;> rfl

/-- A step started with another `P` ends with another `P` and no other difference. -/
theorem step_setP (s : State) (q : Byte) : ∃ t r, step s = .next t ∧ step (s.setP q) = .next (t.setP r) := by
  by_cases hr : s.runState = .running
  · have hq := fetchInstr_setP s q
    cases hf : fetchInstr s with
    | raised t =>
      rw [hf, SubStep.mapState_raised] at hq
      exact ⟨t, q, step_of_raised hr hf, step_of_raised (s := s.setP q) hr hq⟩
    | done i t =>
      rw [hf, SubStep.mapState_done] at hq
      rw [step_of_done hr hf, step_of_done (s := s.setP q) hr hq]
      exact exec_setP i t q
  · exact ⟨s, q, step_quiet hr, step_quiet (s := s.setP q) hr⟩

/-! ## The ports

The port encodings tell their values apart (D2, D3, D7), so the ports determine the state. -/

theorem RunState.code_injective : Function.Injective RunState.code := by
  intro r q h
  cases r <;> cases q <;> simp_all [RunState.code]

theorem FaultCode.code_injective : Function.Injective FaultCode.code := by
  intro c d h
  cases c <;> cases d <;> simp_all [FaultCode.code]

theorem Access.code_injective : Function.Injective Access.code := by
  intro k l h
  cases k <;> cases l <;> simp_all [Access.code]

/-- The outputs show every field of the state but the image. -/
theorem State.eq_of_outputs_eq {s t : State} (h : s.outputs = t.outputs) (hi : s.image = t.image) : s = t := by
  simp only [State.outputs, Outputs.mk.injEq] at h
  obtain ⟨-, ha, hx, hp, hpc, hrun, hcode, hopcode, haddr, hkind⟩ := h
  have hf : s.fault = t.fault :=
    FaultRecord.mk.injEq .. ▸ ⟨FaultCode.code_injective hcode, hopcode, haddr, Access.code_injective hkind⟩
  exact State.ext_fields ha hx hp hpc (RunState.code_injective hrun) hf hi

/-- A fetch as the image's ports answer it (R36, R39). -/
theorem fetch_eq_ports (addr : Index) (k : Access) (s : State) :
    fetch addr k s =
      if s.imgInRange addr then .done (s.imgData addr) s else .raised (raise (.outOfRangeFetch addr k) s) := by
  rcases fetch_cases addr k s with ⟨h, hf⟩ | ⟨h, hf⟩
  · simp [hf, State.imgInRange, Nat.not_lt.mpr h]
  · simp [hf, State.imgInRange, State.imgData, h]

theorem hostRead_running {s : State} (h : s.runState = .running) : hostRead s = none := by
  simp [hostRead, h]

theorem hostRead_quiet {s : State} (h : s.runState ≠ .running) : hostRead s = some s.outputs :=
  if_pos (HostMove.allowed_quiet h (by decide))

/-! ## The statements about the state, settled

The statements about the state (spec/10_state.md), settled from the lemmas above. -/

/-- Settles O13: the three ways `LDA #imm` ends, each excluding the others. -/
theorem ldaImmStep : Obligations.LdaImmStep := by
  intro s h
  have ⟨hr, _, _, hp⟩ := h
  rcases step_cases_ldaImm h with ⟨hlen, hs⟩ | ⟨hlen, hlast, hs⟩ | ⟨hlen, hlast, hs⟩
  · refine ⟨_, hs, rfl, imageKept_of_image_eq rfl, ?_⟩
    rw [if_pos hlen]
    exact ⟨rfl, rfl, rfl, rfl, toNat_pc_succ hp⟩
  · refine ⟨_, hs, rfl, imageKept_of_image_eq rfl, ?_⟩
    rw [if_neg (Nat.not_le.mpr hlen), if_pos hlast]
    exact ⟨rfl, rfl, rfl, rfl, by simp [hlast]⟩
  · refine ⟨_, hs, rfl, imageKept_of_image_eq rfl, ?_⟩
    rw [if_neg (Nat.not_le.mpr hlen), if_neg hlast]
    exact ⟨rfl, flagsFrom_flagsNZ _ _, toNat_pc_add_two hp hlast, hr, rfl⟩

/-- Settles O32: the writer from what a step and a meaning write, the reader from what a change of `A` can change. -/
theorem onlyLdaWritesAOnlyTaxReadsIt : Obligations.OnlyLdaWritesAOnlyTaxReadsIt := by
  refine ⟨fun s t h hne => ?_, fun i s t h hne => ?_, fun i s v hi => ?_, rfl⟩
  · rcases step_registers h with ⟨ha, -⟩ | ⟨hop, ha, -⟩ | ⟨-, ha, -⟩ | ⟨-, ha, -⟩
    case inr.inl => exact ⟨hop, ha⟩
    all_goals exact absurd ha hne
  · rcases exec_registers h with ⟨ha, -⟩ | ⟨hi, -⟩ | ⟨-, ha, -⟩ | ⟨-, ha, -⟩
    case inr.inl => exact hi
    all_goals exact absurd ha hne
  · obtain ⟨t, r, ht, hu⟩ := exec_setA hi s v
    exact ⟨t, t.setA r, ht, hu, rfl⟩

/-- Settles O33: the writers from what a step and a meaning write, the reader from what a change of `X` can change. -/
theorem onlyTaxAndInxWriteXOnlyInxReadsIt : Obligations.OnlyTaxAndInxWriteXOnlyInxReadsIt := by
  refine ⟨fun s t h hne => ?_, fun i s t h hne => ?_, fun i s v hi => ?_, rfl⟩
  · rcases step_registers h with ⟨-, hx, -⟩ | ⟨-, -, hx, -⟩ | ⟨hop, -⟩ | ⟨hop, -⟩
    · exact absurd hx hne
    · exact absurd hx hne
    · exact .inl hop
    · exact .inr hop
  · rcases exec_registers h with ⟨-, hx, -⟩ | ⟨-, hx, -⟩ | ⟨hi, -⟩ | ⟨hi, -⟩
    · exact absurd hx hne
    · exact absurd hx hne
    · exact .inl hi
    · exact .inr hi
  · obtain ⟨t, r, ht, hu⟩ := exec_setX hi s v
    exact ⟨t, t.setX r, ht, hu, rfl⟩

/-- Settles O34: every data instruction passes its result to the flag-update unit, and a change of `P` stays in `P`. -/
theorem flagsWrittenByDataInstructionsReadByNone : Obligations.FlagsWrittenByDataInstructionsReadByNone := by
  refine ⟨fun imm8 s t hp h => ?_, fun s t h => ?_, fun s t h => ?_, fun s t h hne => ?_, fun s q => ?_, fun _ => rfl, rfl, rfl⟩
  · cases (exec_ldaImm_belowLimit imm8 hp).symm.trans h
    exact flagsReflect_flagsNZ _ _
  · cases (exec_tax s).symm.trans h
    exact flagsReflect_flagsNZ _ _
  · cases (exec_inx s).symm.trans h
    exact flagsReflect_flagsNZ _ _
  · rcases step_registers h with ⟨-, -, hp⟩ | ⟨hop, -⟩ | ⟨hop, -⟩ | ⟨hop, -⟩
    · exact absurd hp hne
    · exact .inl hop
    · exact .inr (.inl hop)
    · exact .inr (.inr hop)
  · obtain ⟨t, r, hs, hq⟩ := step_setP s q
    exact ⟨t, t.setP r, hs, hq, rfl⟩

/-- Settles O35: `P` is kept or goes through the flag-update unit, which passes its reserved bits. -/
theorem reservedBitsAreKept : Obligations.ReservedBitsAreKept := by
  refine ⟨fun s t h => ?_, fun i s t h => ?_, rfl, fun s d hr => ?_⟩
  · rcases step_registers h with ⟨-, -, hp⟩ | ⟨-, -, -, hp⟩ | ⟨-, -, -, hp⟩ | ⟨-, -, -, hp⟩ <;> simp [hp]
  · rcases exec_registers h with ⟨-, -, hp⟩ | ⟨-, -, hp⟩ | ⟨-, -, -, hp⟩ | ⟨-, -, -, hp⟩ <;> simp [hp]
  · rw [hostMove_quiet hr HostMove.noConfusion]
    rfl

/-- Settles O37: a step that faults made at most one advance, and any other advanced once per byte of its instruction. -/
theorem pcOnlyAdvances : Obligations.PcOnlyAdvances := by
  intro s t hr h
  rcases step_pc hr h with ⟨hf, hpc | hpc⟩ | hpc
  · exact ⟨hpc.ge, by omega, absurd hf⟩
  · exact ⟨by omega, by omega, absurd hf⟩
  · have hlen := opcodeLength_le_two (s.image.read s.pc.toNat)
    exact ⟨by omega, by omega, fun _ => hpc⟩

/-- Settles O44: the reset table, field by field. -/
theorem resetValues : Obligations.ResetValues :=
  ⟨rfl, rfl, rfl, rfl, rfl, rfl⟩

/-- Settles O48: the encodings are the listed ones, and the ports answer reads and fetches as the lemmas above say. -/
theorem portsShowTheState : Obligations.PortsShowTheState :=
  ⟨⟨rfl, rfl, rfl, rfl⟩, ⟨rfl, rfl, rfl, rfl⟩, ⟨rfl, rfl⟩, fun _ => hostRead_running, fun _ => hostRead_quiet,
    fun _ _ => State.eq_of_outputs_eq, fun k s => ⟨rfl, fetch_eq_ports s.pc k s⟩⟩

end Sys2Proof.Machine

namespace Sys2Proof.Machine

/-! ## The image and the steps

No step and no meaning writes the image (spec/20_memory.md R44, R50), and while a run lasts the host has no effect. -/

/-- A step keeps the image: nothing it does writes there. -/
theorem step_image {s t : State} (h : step s = .next t) : t.image = s.image := by
  by_cases hr : s.runState = .running
  · rcases step_cases hr with ⟨-, hs⟩ | ⟨-, -, hs⟩ | ⟨-, -, ⟨-, -, -, -, hs⟩ | ⟨-, -, hs⟩ | ⟨-, -, -, hs⟩ |
      ⟨-, -, -, hs⟩ | ⟨-, hs⟩ | ⟨-, hs⟩ | ⟨-, hs⟩⟩ <;> cases hs.symm.trans h <;> rfl
  · cases (step_quiet hr).symm.trans h
    rfl

/-- While `Running` every interaction of the host is without effect (R110, D14). -/
theorem hostMove_running (m : HostMove) {s : State} (h : s.runState = .running) : hostMove m s = s := by
  simp [hostMove, h]

/-- Supplying an image and then requesting a run starts the run on that image. -/
theorem hostMove_runReq_supplyImage (bytes : List Byte) {s : State} (h : s.runState ≠ .running) :
    hostMove .runReq (hostMove (.supplyImage bytes) s) = startRun (s.setImage (Memory.ofBytes bytes)) := by
  have hquiet : (s.setImage (Memory.ofBytes bytes)).runState ≠ .running := h
  calc hostMove .runReq (hostMove (.supplyImage bytes) s)
    _ = hostMove .runReq (s.setImage (Memory.ofBytes bytes)) := by
      rw [hostMove_quiet (m := .supplyImage bytes) h HostMove.noConfusion]; rfl
    _ = runReq (s.setImage (Memory.ofBytes bytes)) := hostMove_quiet (m := .runReq) hquiet HostMove.noConfusion
    _ = startRun (s.setImage (Memory.ofBytes bytes)) := runReq_quiet hquiet

/-- Every byte of a sequence stands in the image made of it (R8). -/
theorem Memory.getElem?_eq_read_ofBytes {bytes : List Byte} {k : Nat} (h : k < bytes.length) :
    bytes[k]? = some ((Memory.ofBytes bytes).read k) := by
  simp [Memory.read_ofBytes, h]

/-! ## The fault record and the steps

What a raise records and where it leaves `PC` (spec/60_exceptions.md R90 to R100, with D7 and D8). -/

/-- Every cause leaves a record of the shape R33 gives its code. -/
@[simp] theorem Cause.record_wf (c : Cause) : c.record.wf = true := by
  cases c <;> simp [Cause.record, FaultRecord.wf]

@[simp] theorem Cause.record_code_ne_none (c : Cause) : c.record.code ≠ .none := by
  cases c <;> exact FaultCode.noConfusion

@[simp] theorem faultPcOk_unknownOpcode (op : Byte) (addr pc : Index) :
    faultPcOk (Cause.unknownOpcode op addr).record pc = true ↔ addr ≠ 0xFFFF#16 ∧ pc = addr + 1#16 := by
  change (decide (addr ≠ 0xFFFF#16) && decide (pc = addr + 1#16)) = true ↔ _
  simp

@[simp] theorem faultPcOk_outOfRangeFetch (addr : Index) (k : Access) (pc : Index) :
    faultPcOk (Cause.outOfRangeFetch addr k).record pc = true ↔ pc = addr :=
  decide_eq_true_iff

@[simp] theorem faultPcOk_pcOverflow (k : Access) (pc : Index) :
    faultPcOk (Cause.pcOverflow k).record pc = true ↔ pc = 0xFFFF#16 :=
  decide_eq_true_iff

/-- With no fault recorded `PC` may stand anywhere. -/
theorem faultPcOk_of_code_none {f : FaultRecord} (h : f.code = .none) (pc : Index) : faultPcOk f pc = true := by
  simp [faultPcOk, h]

/-- The record after a step of a `Running` block: a fault is recorded with `PC` where R100 leaves it, or the step does not
fault and keeps the record. -/
theorem step_fault {s t : State} (hr : s.runState = .running) (h : step s = .next t) :
    (∃ (c : Cause) (u : State), t = raise c u ∧ faultPcOk c.record u.pc = true) ∨
    ((t.runState = .running ∨ t.runState = .halted) ∧ t.fault = s.fault) := by
  rcases step_cases hr with ⟨-, hs⟩ | ⟨-, hlim, hs⟩ | ⟨-, hp, ⟨-, -, -, -, hs⟩ | ⟨-, -, hs⟩ | ⟨-, -, hlast, hs⟩ |
    ⟨-, -, -, hs⟩ | ⟨-, hs⟩ | ⟨-, hs⟩ | ⟨-, hs⟩⟩ <;> cases hs.symm.trans h
  · exact .inl ⟨_, _, rfl, by simp⟩
  · exact .inl ⟨_, _, rfl, by simp [hlim]⟩
  · exact .inl ⟨_, _, rfl, by simp [hp]⟩
  · exact .inl ⟨_, _, rfl, by simp⟩
  · exact .inl ⟨_, _, rfl, by simp [hlast]⟩
  · exact .inr ⟨.inl hr, rfl⟩
  · exact .inr ⟨.inl hr, rfl⟩
  · exact .inr ⟨.inl hr, rfl⟩
  · exact .inr ⟨.inr rfl, rfl⟩

/-- A `Running` block that meets the invariant meets it after a step, with `PC` where the block leaves it. -/
theorem step_running_inv {s t : State} (hr : s.runState = .running) (hi : s.Inv) (h : step s = .next t) :
    t.Inv ∧ t.PcInv := by
  obtain ⟨himg, hwf, hiff⟩ := hi
  rw [← step_image h] at himg
  rcases step_fault hr h with ⟨c, u, rfl, hpc⟩ | ⟨hend, hkept⟩
  · have hinv : (raise c u).Inv := ⟨himg, c.record_wf, by simp⟩
    exact ⟨hinv, hpc, RunState.noConfusion⟩
  · have hnone : t.fault.code = .none := by simpa [hr, hkept] using hiff
    have hinv : t.Inv := ⟨himg, hkept ▸ hwf, by rcases hend with hend | hend <;> simp [hend, hnone]⟩
    exact ⟨hinv, faultPcOk_of_code_none hnone _, by rcases hend with hend | hend <;> simp [hend]⟩

/-! ## The image beyond the counter's reach

A fetch's index is a value of `PC`, so it stays below 65536, and the image is read by fetches alone (spec/20_memory.md R39,
R41). So each sub-step commutes with a change of the image above that, and every meaning with any change of it. -/

/-- Two images alike at every index that `PC` can hold: the same of them in range, and the same bytes. -/
def Memory.AlikeInReach (m n : Memory) : Prop :=
  ∀ i : Nat, i < 65536 → ((i < m.progLen ↔ i < n.progLen) ∧ m.read i = n.read i)

/-- A sequence commutes with a change of the state when its continuation does in the state its first part ends in. -/
theorem SubStep.andThen_mapState_of_done {α β : Type} {f : State → State} {g : α → State → SubStep β} {r : SubStep α}
    (hg : ∀ v s, r = .done v s → g v (f s) = (g v s).mapState f) :
    (r.mapState f).andThen g = (r.andThen g).mapState f := by
  cases r with
  | done v s => exact hg v s rfl
  | raised s => rfl

theorem fetch_done {addr : Index} {k : Access} {s t : State} {v : Byte} (h : fetch addr k s = .done v t) : t = s := by
  rcases fetch_cases addr k s with ⟨-, hf⟩ | ⟨-, hf⟩ <;> cases hf.symm.trans h
  rfl

theorem advance_done {k : Access} {s t : State} {v : Unit} (h : advance k s = .done v t) : t = s.setPc (s.pc + 1#16) := by
  rcases advance_cases k s with ⟨-, ha⟩ | ⟨-, ha⟩ <;> cases ha.symm.trans h
  rfl

theorem fetch_setImage {s : State} {m : Memory} (hm : m.AlikeInReach s.image) (addr : Index) (k : Access) :
    fetch addr k (s.setImage m) = (fetch addr k s).mapState (·.setImage m) := by
  obtain ⟨hlen, hread⟩ := hm addr.toNat addr.isLt
  rcases fetch_cases addr k s with ⟨h, hf⟩ | ⟨h, hf⟩
  · rw [hf]
    exact fetch_outOfRange (s := s.setImage m) k (Nat.not_lt.mp fun hc => absurd (hlen.mp hc) (Nat.not_lt.mpr h))
  · rw [hf, ← hread]
    exact fetch_inRange (s := s.setImage m) k (hlen.mpr h)

theorem advance_setImage (k : Access) (s : State) (m : Memory) :
    advance k (s.setImage m) = (advance k s).mapState (·.setImage m) := by
  rcases advance_cases k s with ⟨h, ha⟩ | ⟨h, ha⟩
  · rw [ha]; exact advance_atLimit k h
  · rw [ha]; exact advance_belowLimit k h

theorem fetchOperands_setImage {s : State} {m : Memory} (hm : m.AlikeInReach s.image) (n : Nat) :
    fetchOperands n (s.setImage m) = (fetchOperands n s).mapState (·.setImage m) := by
  unfold fetchOperands
  split
  · rfl
  · rw [fetchImmediate, State.setImage_pc, fetch_setImage hm]
    exact SubStep.andThen_mapState (fun _ _ => rfl) _

/-- The fetch stage does not read the image beyond the counter's reach. -/
theorem fetchInstr_setImage {s : State} {m : Memory} (hm : m.AlikeInReach s.image) :
    fetchInstr (s.setImage m) = (fetchInstr s).mapState (·.setImage m) := by
  unfold fetchInstr
  rw [State.setImage_pc, fetch_setImage hm]
  refine SubStep.andThen_mapState_of_done fun op fetched hf => ?_
  rw [fetch_done hf, advance_setImage]
  refine SubStep.andThen_mapState_of_done fun _ advanced ha => ?_
  rw [advance_done ha, fetchOperands_setImage (s := s.setPc (s.pc + 1#16)) hm]
  refine SubStep.andThen_mapState (fun operands _ => ?_) _
  cases decode (op :: operands) <;> rfl

/-- No meaning reads or writes the image. -/
theorem exec_setImage (i : Instr) (s : State) (m : Memory) :
    ∃ t, exec i s = .next t ∧ exec i (s.setImage m) = .next (t.setImage m) := by
  cases i with
  | ldaImm imm8 =>
    by_cases hp : s.pc = 0xFFFF#16
    · exact ⟨_, exec_ldaImm_atLimit imm8 hp, exec_ldaImm_atLimit imm8 (s := s.setImage m) hp⟩
    · exact ⟨_, exec_ldaImm_belowLimit imm8 hp, exec_ldaImm_belowLimit imm8 (s := s.setImage m) hp⟩
  | tax => exact ⟨_, exec_tax s, exec_tax (s.setImage m)⟩
  | inx => exact ⟨_, exec_inx s, exec_inx (s.setImage m)⟩
  | halt => exact ⟨_, exec_halt s, exec_halt (s.setImage m)⟩

/-- A step on an image alike in reach ends in the same state but for the image. -/
theorem step_setImage {s : State} {m : Memory} (hm : m.AlikeInReach s.image) :
    ∃ t, step s = .next t ∧ step (s.setImage m) = .next (t.setImage m) := by
  by_cases hr : s.runState = .running
  · have hq := fetchInstr_setImage hm
    cases hf : fetchInstr s with
    | raised t =>
      rw [hf, SubStep.mapState_raised] at hq
      exact ⟨t, step_of_raised hr hf, step_of_raised (s := s.setImage m) hr hq⟩
    | done i t =>
      rw [hf, SubStep.mapState_done] at hq
      rw [step_of_done hr hf, step_of_done (s := s.setImage m) hr hq]
      exact exec_setImage i t m
  · exact ⟨s, step_quiet hr, step_quiet (s := s.setImage m) hr⟩

/-! ## The statements about the memory, settled

The statements about the image (spec/20_memory.md), settled from the lemmas above. -/

/-- Settles O29: a `Running` step either records a fault or keeps the record of a block without one; any other changes
nothing. -/
theorem stepKeepsInv : Obligations.StepKeepsInv := by
  intro s t hi h
  by_cases hr : s.runState = .running
  · have ⟨hinv, hpc⟩ := step_running_inv hr hi h
    exact ⟨hinv, fun _ => hpc, fun _ => hpc⟩
  · cases (step_quiet hr).symm.trans h
    exact ⟨hi, id, fun hc => absurd hc hr⟩

/-- Settles O38: steps do not write the image, the host cannot while `Running`, and a run starts on the image supplied last. -/
theorem imageFixedDuringRun : Obligations.ImageFixedDuringRun := by
  refine ⟨fun s t h => imageKept_of_image_eq (step_image h), fun m s hr => ?_, fun bytes s hr => ?_⟩
  · exact imageKept_of_image_eq (by rw [hostMove_running m hr])
  · exact ⟨_, hostMove_runReq_supplyImage bytes hr, rfl, rfl, fun _ => Memory.getElem?_eq_read_ofBytes⟩

/-- Settles O43: the step commutes with a change of the image beyond the counter's reach. -/
theorem imageBeyondReachDoesNotMatter : Obligations.ImageBeyondReachDoesNotMatter := by
  intro s t m hm h
  obtain ⟨u, hs, hset⟩ := step_setImage (m := m) hm
  cases hs.symm.trans h
  exact hset

/-- Settles O21: the two outcomes of a fetch; no index is below a `PROG_LEN` of 0. -/
theorem fetchChecksTheBound : Obligations.FetchChecksTheBound :=
  fun addr k _ => ⟨fetch_outOfRange k, fetch_inRange k, fun h => fetch_outOfRange k (h ▸ Nat.zero_le addr.toNat)⟩

end Sys2Proof.Machine

/-! ## The decoder and the encoder

The decoder is the encoder's inverse (spec/30_encoding.md R53 to R58), and it rejects exactly the bytes no encoding begins
with (R60). -/

namespace Sys2Proof

@[simp] theorem encode_ldaImm (imm8 : Byte) : encode (.ldaImm imm8) = [0xA9#8, imm8] := rfl
@[simp] theorem encode_tax : encode .tax = [0xAA#8] := rfl
@[simp] theorem encode_inx : encode .inx = [0xE8#8] := rfl
@[simp] theorem encode_halt : encode .halt = [0x00#8] := rfl

/-- An encoding decodes to its instruction and leaves what follows it. -/
@[simp] theorem decode_encode_append (i : Instr) (rest : List Byte) : decode (encode i ++ rest) = .instr i rest := by
  cases i <;> simp

/-- What the decoder reads as an instruction is that instruction's encoding: of the opcodes only the four of the table
are not rejected, and each decodes to the one instruction that it encodes. -/
theorem eq_encode_append_of_decode {bytes : List Byte} {i : Instr} {rest : List Byte}
    (h : decode bytes = .instr i rest) : bytes = encode i ++ rest := by
  match bytes with
  | [] => cases h
  | op :: tail =>
    rcases describe_cases op with rfl | rfl | rfl | rfl | ⟨-, -, -, -, hd⟩
    · match tail with
      | [] => cases h
      | imm8 :: after => cases (decode_ldaImm imm8 after).symm.trans h; rfl
    · cases (decode_tax tail).symm.trans h; rfl
    · cases (decode_inx tail).symm.trans h; rfl
    · cases (decode_halt tail).symm.trans h; rfl
    · cases (decode_undefined tail (by rw [hd])).symm.trans h

/-- An opcode is undefined exactly when it is none of the table's four (R60). -/
theorem describe_cls_eq_undefined_iff (op : Byte) :
    (describe op).cls = .undefined ↔ op ≠ 0xA9#8 ∧ op ≠ 0xAA#8 ∧ op ≠ 0xE8#8 ∧ op ≠ 0x00#8 := by
  rcases describe_cases op with rfl | rfl | rfl | rfl | ⟨h1, h2, h3, h4, hd⟩
  case inr.inr.inr.inr => simp [hd, h1, h2, h3, h4]
  all_goals simp

/-- The values beside the table's four opcodes lie in three ranges. -/
theorem ne_opcodes_iff_ranges (op : Byte) :
    (op ≠ 0xA9#8 ∧ op ≠ 0xAA#8 ∧ op ≠ 0xE8#8 ∧ op ≠ 0x00#8) ↔
      (0x01 ≤ op.toNat ∧ op.toNat ≤ 0xA8) ∨ (0xAB ≤ op.toNat ∧ op.toNat ≤ 0xE7) ∨
        (0xE9 ≤ op.toNat ∧ op.toNat ≤ 0xFF) := by
  bv_omega

/-- The byte values, as numbers, that the table gives the class UNDEFINED. -/
def undefinedValues : List Nat :=
  (List.range 256).filter fun n => decide ((describe (BitVec.ofNat 8 n)).cls = .undefined)

/-- The undefined values are all 256 but the table's four (R60). -/
theorem toFinset_undefinedValues : undefinedValues.toFinset = Finset.range 256 \ {0xA9, 0xAA, 0xE8, 0x00} := by
  ext n
  simp only [undefinedValues, List.toFinset_filter, List.toFinset_range, Finset.mem_filter, Finset.mem_sdiff,
    Finset.mem_range, decide_eq_true_eq, Finset.mem_insert, Finset.mem_singleton, not_or]
  refine and_congr_right fun hn => (describe_cls_eq_undefined_iff _).trans ?_
  simp [← BitVec.toNat_inj, Nat.mod_eq_of_lt hn]

theorem length_undefinedValues : undefinedValues.length = 252 :=
  calc undefinedValues.length
    _ = undefinedValues.toFinset.card := (List.toFinset_card_of_nodup (List.nodup_range.filter _)).symm
    _ = (Finset.range 256 \ {0xA9, 0xAA, 0xE8, 0x00}).card := congrArg _ toFinset_undefinedValues
    _ = 256 - 4 := by
      rw [Finset.card_sdiff_of_subset (by simp [Finset.insert_subset_iff]), Finset.card_range]
      rfl

end Sys2Proof

namespace Sys2Proof.Machine

/-- A step that dispatches an undefined opcode raises `UnknownOpcode` with the byte and its index, `PC` one past it (R87). -/
theorem step_undefined {s : State} {op : Byte} (h : s.atOpcode op) (hu : (describe op).cls = .undefined) :
    step s = .next (raise (.unknownOpcode op s.pc) (s.setPc (s.pc + 1#16))) := by
  obtain ⟨hr, hl, rfl, hp⟩ := h
  obtain ⟨h1, h2, h3, h4⟩ := (describe_cls_eq_undefined_iff _).mp hu
  rcases step_cases hr with ⟨hge, -⟩ | ⟨-, hlim, -⟩ | ⟨-, -, hc⟩
  · omega
  · exact absurd hlim hp
  · simpa [h1, h2, h3, h4] using hc

/-! ## The statements about the encoding, settled -/

/-- Settles O3: the decoder gives back every encoding, and reads an instruction from nothing else. -/
theorem decodeExactlyEncodings : Obligations.DecodeExactlyEncodings :=
  fun _ i rest => ⟨eq_encode_append_of_decode, fun h => h ▸ decode_encode_append i rest⟩

/-- Settles O5: the values beside the table's four, their number by taking four from 256, and what decoder and step do with
them. -/
theorem undefinedValuesAreTheThreeRanges : Obligations.UndefinedValuesAreTheThreeRanges := by
  refine ⟨fun op => (describe_cls_eq_undefined_iff op).trans (ne_opcodes_iff_ranges op), length_undefinedValues,
    fun _ => decode_undefined, ?_⟩
  exact fun _ _ hu h => ⟨_, step_undefined h hu, rfl, rfl⟩

/-- Settles O4: the four patterns are encodings, and an operand byte is not looked up in the table. -/
theorem tablePatternsDecode : Obligations.TablePatternsDecode :=
  ⟨decode_encode_append (.ldaImm 0x05#8) [], decode_encode_append .tax [], decode_encode_append .inx [],
    decode_encode_append .halt [], decode_encode_append (.ldaImm 0x00#8) [0xAA#8]⟩

end Sys2Proof.Machine

namespace Sys2Proof.Machine

/-! ## The flag-update unit as the spec's formula -/

/-- A byte shifted down by seven places is its bit 7. -/
theorem ushiftRight_seven (r : Byte) : r >>> 7 = if r.getLsbD 7 then 1#8 else 0#8 := by
  have hbit : r.getLsbD 7 = decide (128 ≤ r.toNat) := BitVec.msb_eq_getLsbD_last r ▸ BitVec.msb_eq_decide r
  by_cases h : 128 ≤ r.toNat
  · rw [hbit, decide_eq_true h, if_pos rfl]
    bv_omega
  · rw [hbit, decide_eq_false h, if_neg Bool.false_ne_true]
    bv_omega

/-- `FlagsNZ` is R76's masked formula: its `n << 7` takes bit 7 of the result down and up again. -/
theorem flagsNZ_eq_masked (p r : Byte) :
    flagsNZ p r = ((p &&& 0x7D#8) ||| ((if r = 0x00#8 then 1#8 else 0#8) <<< 1) ||| ((r >>> 7) <<< 7)) := by
  rw [ushiftRight_seven]
  rfl

/-- No result is both zero and negative (R77). -/
theorem not_zero_and_negative_flagsNZ (p r : Byte) :
    ¬(zeroFlag (flagsNZ p r) = true ∧ negativeFlag (flagsNZ p r) = true) := by
  rintro ⟨hz, hn⟩
  have hr : r = 0x00#8 := by simpa using hz
  simp [hr] at hn

/-! ## The fetch stage as the decoder on the bytes at `PC`

The fetch stage reads no more of the image than the decoder needs (R61, R63). So below the counter's limit it agrees with the
decoder on all the bytes a step could fetch. -/

theorem Memory.bytesFrom_outOfRange {m : Memory} {i : Nat} (h : m.progLen ≤ i) (n : Nat) : m.bytesFrom i n = [] := by
  cases n with
  | zero => rfl
  | succ n => exact if_neg (Nat.not_lt.mpr h)

theorem Memory.bytesFrom_inRange {m : Memory} {i : Nat} (h : i < m.progLen) (n : Nat) :
    m.bytesFrom i (n + 1) = m.read i :: m.bytesFrom (i + 1) n := if_pos h

theorem State.codeBytes_outOfRange {s : State} (h : s.image.progLen ≤ s.pc.toNat) : s.codeBytes = [] :=
  Memory.bytesFrom_outOfRange h 2

theorem State.codeBytes_inRange {s : State} (h : s.pc.toNat < s.image.progLen) :
    s.codeBytes = s.image.read s.pc.toNat :: s.image.bytesFrom (s.pc.toNat + 1) 1 :=
  Memory.bytesFrom_inRange h 1

/-- The fault that a rejection of the bytes at `PC` stands for, raised after the advances made so far (R91, R92, R100). -/
def State.raiseRejection (s : State) : DecodeError → State
  | .noBytes => raise (.outOfRangeFetch s.pc .opcode) s
  | .undefinedOpcode op => raise (.unknownOpcode op s.pc) (s.setPc (s.pc + 1#16))
  | .missingOperand _ => raise (.outOfRangeFetch (s.pc + 1#16) .operand) (s.setPc (s.pc + 1#16))

/-- What the fetch stage makes of the decoder's answer: an instruction to dispatch, or the rejection's fault. -/
def State.fetchOfDecoded (s : State) : Decoded → SubStep Instr
  | .instr i _ => .done i (s.setPc (s.pc + 1#16))
  | .rejected e => .raised (s.raiseRejection e)

/-- Below the counter's limit the fetch stage is the decoder on the bytes at `PC`. -/
theorem fetchInstr_eq_fetchOfDecoded {s : State} (hp : s.pc ≠ 0xFFFF#16) :
    fetchInstr s = s.fetchOfDecoded (decode s.codeBytes) := by
  rcases fetchInstr_cases s with ⟨hge, hf⟩ | ⟨-, hlim, -⟩ | ⟨hl, -, hc⟩
  · rw [hf, State.codeBytes_outOfRange hge]
    rfl
  · exact absurd hlim hp
  · rw [State.codeBytes_inRange hl]
    rcases hc with ⟨h1, h2, h3, h4, hf⟩ | ⟨hop, hge, hf⟩ | ⟨hop, hlt, hf⟩ | ⟨hop, hf⟩ | ⟨hop, hf⟩ | ⟨hop, hf⟩
    · rw [hf, decode_undefined _ ((describe_cls_eq_undefined_iff _).mpr ⟨h1, h2, h3, h4⟩)]
      rfl
    · rw [hf, hop, Memory.bytesFrom_outOfRange hge, decode_ldaImm_alone]
      rfl
    · rw [hf, hop, Memory.bytesFrom_inRange hlt, decode_ldaImm]
      rfl
    · rw [hf, hop, decode_tax]
      rfl
    · rw [hf, hop, decode_inx]
      rfl
    · rw [hf, hop, decode_halt]
      rfl

theorem fetchInstr_of_decode_instr {s : State} {i : Instr} {rest : List Byte} (hp : s.pc ≠ 0xFFFF#16)
    (h : decode s.codeBytes = .instr i rest) : fetchInstr s = .done i (s.setPc (s.pc + 1#16)) := by
  rw [fetchInstr_eq_fetchOfDecoded hp, h]
  rfl

theorem fetchInstr_of_decode_rejected {s : State} {e : DecodeError} (hp : s.pc ≠ 0xFFFF#16)
    (h : decode s.codeBytes = .rejected e) : fetchInstr s = .raised (s.raiseRejection e) := by
  rw [fetchInstr_eq_fetchOfDecoded hp, h]
  rfl

/-! ## The step by the fault table

A step of a `Running` block raises the fault that R97's table (`faultOfStep`) names, and completes its instruction where the
table names none. -/

theorem toNat_eq_limit_iff (pc : Index) : pc.toNat = 65535 ↔ pc = 0xFFFF#16 := by
  bv_omega

theorem toNat_succ_eq_limit_iff (pc : Index) : pc.toNat + 1 = 65535 ↔ pc = 0xFFFE#16 := by
  bv_omega

/-- Everything a step of a `Running` block can do: the fault of R97's table with `PC` by R100's, or, where no fault applies, the
completed instruction of one of the four opcodes. -/
theorem step_cases_faultOfStep {s : State} (hr : s.runState = .running) :
    (∃ c : Cause, faultOfStep s = some c ∧ step s = .next (raise c (s.setPc (pcAfterFault c s.pc)))) ∨
    (faultOfStep s = none ∧
      ((s.atOpcode 0xA9#8 ∧ step s = .next (((s.setPc (s.pc + 2#16)).setA (s.image.read (s.pc.toNat + 1))).observe
          (s.image.read (s.pc.toNat + 1)))) ∨
       (s.atOpcode 0xAA#8 ∧ step s = .next (((s.setPc (s.pc + 1#16)).setX s.a).observe s.a)) ∨
       (s.atOpcode 0xE8#8 ∧ step s = .next (((s.setPc (s.pc + 1#16)).setX (s.x + 1#8)).observe (s.x + 1#8))) ∨
       (s.atOpcode 0x00#8 ∧ step s = .next ((s.setPc (s.pc + 1#16)).setRunState .halted)))) := by
  rcases step_cases hr with ⟨hge, hs⟩ | ⟨hl, hlim, hs⟩ | ⟨hl, hp, hc⟩
  · exact .inl ⟨_, by simp [faultOfStep, hge], hs⟩
  · have hpc := (toNat_eq_limit_iff s.pc).mpr hlim
    exact .inl ⟨.pcOverflow .opcode, by simp [faultOfStep, hpc, Nat.not_le.mpr (hpc ▸ hl)], hs⟩
  · have hin := Nat.not_le.mpr hl
    have hpc := mt (toNat_eq_limit_iff s.pc).mp hp
    rcases hc with ⟨h1, h2, h3, h4, hs⟩ | ⟨hop, hge, hs⟩ | ⟨hop, hlt, hlast, hs⟩ | ⟨hop, hlt, hlast, hs⟩ |
      ⟨hop, hs⟩ | ⟨hop, hs⟩ | ⟨hop, hs⟩
    · exact .inl ⟨_, by simp [faultOfStep, hin, hpc, h1, h2, h3, h4], hs⟩
    · exact .inl ⟨_, by simp [faultOfStep, hin, hpc, hop, hge], hs⟩
    · have hpc' := (toNat_succ_eq_limit_iff s.pc).mpr hlast
      exact .inl ⟨.pcOverflow .operand,
        by simp [faultOfStep, hin, hpc, hop, hpc', Nat.not_le.mpr (hpc' ▸ hlt)], hs⟩
    · have hpc' := mt (toNat_succ_eq_limit_iff s.pc).mp hlast
      exact .inr ⟨by simp [faultOfStep, hin, hpc, hop, hpc', Nat.not_le.mpr hlt], .inl ⟨⟨hr, hl, hop, hp⟩, hs⟩⟩
    · exact .inr ⟨by simp [faultOfStep, hin, hpc, hop], .inr (.inl ⟨⟨hr, hl, hop, hp⟩, hs⟩)⟩
    · exact .inr ⟨by simp [faultOfStep, hin, hpc, hop], .inr (.inr (.inl ⟨⟨hr, hl, hop, hp⟩, hs⟩))⟩
    · exact .inr ⟨by simp [faultOfStep, hin, hpc, hop], .inr (.inr (.inr ⟨⟨hr, hl, hop, hp⟩, hs⟩))⟩

/-! ### The result of a step -/

theorem resultOfStep_of_fault {s : State} {c : Cause} (hf : faultOfStep s = some c) : resultOfStep s = none := by
  simp [resultOfStep, hf]

theorem resultOfStep_ldaImm {s : State} (hf : faultOfStep s = none) (h : s.atOpcode 0xA9#8) :
    resultOfStep s = some (s.image.read (s.pc.toNat + 1)) := by
  obtain ⟨-, -, hop, -⟩ := h
  simp [resultOfStep, hf, hop]

theorem resultOfStep_tax {s : State} (hf : faultOfStep s = none) (h : s.atOpcode 0xAA#8) : resultOfStep s = some s.a := by
  obtain ⟨-, -, hop, -⟩ := h
  simp [resultOfStep, hf, hop]

theorem resultOfStep_inx {s : State} (hf : faultOfStep s = none) (h : s.atOpcode 0xE8#8) :
    resultOfStep s = some (s.x + 1#8) := by
  obtain ⟨-, -, hop, -⟩ := h
  simp [resultOfStep, hf, hop]

theorem resultOfStep_halt {s : State} (hf : faultOfStep s = none) (h : s.atOpcode 0x00#8) : resultOfStep s = none := by
  obtain ⟨-, -, hop, -⟩ := h
  simp [resultOfStep, hf, hop]

/-! ### How a step ends -/

/-- One opcode stands at `PC`. -/
theorem State.not_atOpcode_of_ne {s : State} {op op' : Byte} (h : s.atOpcode op) (hne : op ≠ op') : ¬s.atOpcode op' := by
  rintro ⟨-, -, hop', -⟩
  obtain ⟨-, -, hop, -⟩ := h
  exact hne (hop.symm.trans hop')

/-- Dispatching `HALT` raises no fault: it has no operand to fetch (R61, R86). -/
theorem faultOfStep_halt {s : State} (h : s.atOpcode 0x00#8) : faultOfStep s = none := by
  obtain ⟨-, hl, hop, hp⟩ := h
  simp [faultOfStep, hl, mt (toNat_eq_limit_iff s.pc).mp hp, hop]

/-- How a step of a `Running` block ends: `Faulted` with a fault recorded and the registers as they were, `Halted` by the
halt opcode, or `Running` (R73, R75, R82, R86). -/
theorem step_ends {s t : State} (hr : s.runState = .running) (h : step s = .next t) :
    (t.runState = .faulted ∧ ¬s.atOpcode 0x00#8 ∧ t.a = s.a ∧ t.x = s.x ∧ t.p = s.p ∧ t.fault.code ≠ .none) ∨
    (t.runState = .halted ∧ s.atOpcode 0x00#8) ∨
    (t.runState = .running ∧ ¬s.atOpcode 0x00#8) := by
  rcases step_cases_faultOfStep hr with ⟨c, hf, hs⟩ | ⟨-, ⟨hop, hs⟩ | ⟨hop, hs⟩ | ⟨hop, hs⟩ | ⟨hop, hs⟩⟩ <;>
    cases hs.symm.trans h
  · have hne : ¬s.atOpcode 0x00#8 := fun hop => nomatch hf.symm.trans (faultOfStep_halt hop)
    exact .inl ⟨rfl, hne, rfl, rfl, rfl, c.record_code_ne_none⟩
  · exact .inr (.inr ⟨hr, State.not_atOpcode_of_ne hop (by decide)⟩)
  · exact .inr (.inr ⟨hr, State.not_atOpcode_of_ne hop (by decide)⟩)
  · exact .inr (.inr ⟨hr, State.not_atOpcode_of_ne hop (by decide)⟩)
  · exact .inr (.inl ⟨rfl, hop⟩)

/-! ## The statements about the engine, settled

The statements about the engine and the flag-update unit (spec/40_engine.md), settled from the lemmas above. -/

/-- Settles O1: the formula, and the bits it gives. -/
theorem flagsUnitIsTheMaskedFormula : Obligations.FlagsUnitIsTheMaskedFormula :=
  fun p r => ⟨flagsNZ_eq_masked p r, flagsFrom_flagsNZ p r⟩

/-- Settles O2: the reserved bits come from the old byte and the two flags from the result alone. -/
theorem flagsUnitPassesReservedBits : Obligations.FlagsUnitPassesReservedBits :=
  fun p q r => ⟨reservedBits_flagsNZ p r, (zeroFlag_flagsNZ p r).trans (zeroFlag_flagsNZ q r).symm,
    (negativeFlag_flagsNZ p r).trans (negativeFlag_flagsNZ q r).symm, not_zero_and_negative_flagsNZ p r⟩

/-- Settles O19: the fetch stage is the decoder, so a rejection ends the step with its fault. -/
theorem stepOnRejectedBytesRaises : Obligations.StepOnRejectedBytesRaises := by
  intro s e hr hp h
  rw [step_of_raised hr (fetchInstr_of_decode_rejected hp h)]
  cases e <;> rfl

/-- Settles O26: of the ways a step ends, the faulted one keeps the registers. -/
theorem faultingStepLeavesRegisters : Obligations.FaultingStepLeavesRegisters := by
  intro s t hr h hend
  rcases step_ends hr h with ⟨-, -, hkept⟩ | ⟨hhalt, -⟩ | ⟨hrun, -⟩
  · exact hkept
  · cases hend.symm.trans hhalt
  · cases hend.symm.trans hrun

/-- Settles O36: a completed data instruction passes its result to the flag-update unit, and a fault or `HALT` keeps `P`. -/
theorem flagsReflectTheLastResult : Obligations.FlagsReflectTheLastResult := by
  intro s t hr h
  rcases step_cases_faultOfStep hr with ⟨c, hf, hs⟩ | ⟨hf, ⟨hop, hs⟩ | ⟨hop, hs⟩ | ⟨hop, hs⟩ | ⟨hop, hs⟩⟩ <;>
    cases hs.symm.trans h
  · rw [resultOfStep_of_fault hf]
    exact fun _ => id
  · rw [resultOfStep_ldaImm hf hop]
    exact flagsReflect_flagsNZ _ _
  · rw [resultOfStep_tax hf hop]
    exact flagsReflect_flagsNZ _ _
  · rw [resultOfStep_inx hf hop]
    exact flagsReflect_flagsNZ _ _
  · rw [resultOfStep_halt hf hop]
    exact fun _ => id

/-- Settles O40: of the ways a step ends, the halt opcode's is the halted one, and each has its result. -/
theorem onlyHaltEndsARunWell : Obligations.OnlyHaltEndsARunWell := by
  intro s t hr h
  rcases step_ends hr h with ⟨hend, hop, -⟩ | ⟨hend, hop⟩ | ⟨hend, hop⟩
  · exact ⟨iff_of_false (by simp [hend]) hop, .inr (.inr (by simp [State.result, hend]))⟩
  · exact ⟨iff_of_true hend hop, .inr (.inl (by simp [State.result, hend]))⟩
  · exact ⟨iff_of_false (by simp [hend]) hop, .inl (by simp [State.result, hend])⟩

/-- Settles O9: the operand's advance raises, and a raise writes the record and the engine state only. -/
theorem ldaImmTrapsAtCounterLimit : Obligations.LdaImmTrapsAtCounterLimit :=
  fun imm8 _ hp => ⟨_, exec_ldaImm_atLimit imm8 hp, rfl, rfl, rfl, rfl, rfl, rfl, imageKept_of_image_eq rfl⟩

/-- Settles O18: the fetch stage is the decoder, so the step dispatches what the bytes at `PC` decode to. -/
theorem stepRunsDecodedInstruction : Obligations.StepRunsDecodedInstruction :=
  fun _ _ _ hr hp _ h => step_of_done hr (fetchInstr_of_decode_instr hp h)

end Sys2Proof.Machine

namespace Sys2Proof.Machine

/-- At the opcode of an instruction of one byte, in range and below the counter's limit, nothing of the fetch stage can fault:
the step advances `PC` once and runs the instruction's meaning (R69, R72). -/
theorem step_eq_exec_of_oneByte {s : State} {op : Byte} {i : Instr} (h : s.atOpcode op)
    (hd : ∀ rest, decode (op :: rest) = .instr i rest) : step s = exec i (s.setPc (s.pc + 1#16)) := by
  obtain ⟨hr, hl, rfl, hp⟩ := h
  have hdec := (congrArg decode (State.codeBytes_inRange hl)).trans (hd _)
  exact step_of_done hr (fetchInstr_of_decode_instr hp hdec)

/-- A step that dispatches `TAX` completes it, `PC` one past its single byte (R84). -/
theorem step_tax {s : State} (h : s.atOpcode 0xAA#8) :
    step s = .next (((s.setPc (s.pc + 1#16)).setX s.a).observe s.a) :=
  (step_eq_exec_of_oneByte h decode_tax).trans (exec_tax _)

/-! ## The statements about load and transfer, settled

The statements about `LDA #imm` and `TAX` (spec/41_load_transfer.md), settled from the lemmas above. -/

/-- Settles O8: the operand's advance succeeds, and the byte goes to `A` and through the flag-update unit. -/
theorem ldaImmCompletes : Obligations.LdaImmCompletes :=
  fun imm8 _ hp => ⟨_, exec_ldaImm_belowLimit imm8 hp, rfl, flagsFrom_flagsNZ _ _, toNat_pc_succ hp, rfl, rfl, rfl,
    imageKept_of_image_eq rfl⟩

/-- Settles O10: `TAX` has no check to fail, and writes `X` and the flags only. -/
theorem taxCompletes : Obligations.TaxCompletes :=
  fun s => ⟨_, exec_tax s, rfl, flagsFrom_flagsNZ _ _, rfl, rfl, rfl, rfl, imageKept_of_image_eq rfl⟩

/-- Settles O14: the step advances `PC` once and then does what `TAX` means. -/
theorem taxStep : Obligations.TaxStep := by
  refine ⟨encode_tax, fun s h => ?_⟩
  have ⟨hr, _, _, hp⟩ := h
  exact ⟨_, step_tax h, rfl, flagsFrom_flagsNZ _ _, toNat_pc_succ hp, rfl, hr, rfl, imageKept_of_image_eq rfl⟩

end Sys2Proof.Machine

namespace Sys2Proof.Machine

/-! ## Increments in a row -/

/-- Adding one wraps to zero from 0xFF alone (R85). -/
theorem add_one_eq_zero_iff (x : Byte) : x + 1#8 = 0x00#8 ↔ x = 0xFF#8 :=
  add_eq_zero_iff_eq_neg

/-- Of two results passed to the flag-update unit one after the other, the second alone sets the flags (R76 to R78). -/
@[simp] theorem flagsNZ_flagsNZ (p q r : Byte) : flagsNZ (flagsNZ p q) r = flagsNZ p r := by
  refine BitVec.eq_of_getElem_eq fun i hi => ?_
  simp only [flagsNZ_getElem _ _ hi]
  split_ifs <;> rfl

/-- A result written to `X` and observed replaces an earlier one, flags included. -/
theorem observe_setX_observe_setX (s : State) (u v : Byte) :
    (((s.setX u).observe u).setX v).observe v = (s.setX v).observe v :=
  State.ext_fields rfl rfl (flagsNZ_flagsNZ s.p u v) rfl rfl rfl rfl

/-- `INX` any number of times in a row, at least once, is one addition to `X` with the flags from the sum: every increment
replaces the result of the one before (R77, R85). -/
theorem execRepeat_inx_succ (n : Nat) (s : State) :
    execRepeat .inx (n + 1) s =
      .next ((s.setX (s.x + BitVec.ofNat 8 (n + 1))).observe (s.x + BitVec.ofNat 8 (n + 1))) := by
  induction n generalizing s with
  | zero => rfl
  | succ n ih =>
    have hsum : s.x + 1#8 + BitVec.ofNat 8 (n + 1) = s.x + BitVec.ofNat 8 (n + 1 + 1) := by
      rw [BitVec.add_assoc, BitVec.add_comm 1#8, ← BitVec.ofNat_add]
    have hrest := ih ((s.setX (s.x + 1#8)).observe (s.x + 1#8))
    rw [observe_setX_observe_setX, State.observe_x, State.setX_x, hsum] at hrest
    exact hrest

/-- 256 `INX` in a row return `X`, with the flags from it: 256 is 0 modulo 256 (R85). -/
theorem execRepeat_inx_256 (s : State) : execRepeat .inx 256 s = .next ((s.setX s.x).observe s.x) := by
  have hsum : s.x + BitVec.ofNat 8 (255 + 1) = s.x := BitVec.add_zero s.x
  have h := execRepeat_inx_succ 255 s
  rwa [hsum] at h

/-- A step that dispatches `INX` completes it, `PC` one past its single byte (R85). -/
theorem step_inx {s : State} (h : s.atOpcode 0xE8#8) :
    step s = .next (((s.setPc (s.pc + 1#16)).setX (s.x + 1#8)).observe (s.x + 1#8)) :=
  (step_eq_exec_of_oneByte h decode_inx).trans (exec_inx _)

/-! ## The statements about the increment, settled

The statements about `INX` (spec/42_increment.md), settled from the lemmas above. -/

/-- Settles O11: `INX` has no check to fail, and writes `X` and the flags only. -/
theorem inxCompletes : Obligations.InxCompletes :=
  fun s => ⟨_, exec_inx s, BitVec.toNat_add s.x 1#8, flagsFrom_flagsNZ _ _, rfl, rfl, rfl, rfl, imageKept_of_image_eq rfl⟩

/-- Settles O15: the step advances `PC` once and then does what `INX` means, and 256 increments add up to zero. -/
theorem inxStep : Obligations.InxStep := by
  refine ⟨encode_inx, fun s h => ?_, fun s => ⟨_, execRepeat_inx_256 s, rfl, flagsFrom_flagsNZ _ _⟩⟩
  have ⟨hr, _, _, hp⟩ := h
  have hz : zeroFlag (flagsNZ s.p (s.x + 1#8)) = decide (s.x = 0xFF#8) := by
    simp only [zeroFlag_flagsNZ, add_one_eq_zero_iff]
  exact ⟨_, step_inx h, BitVec.toNat_add s.x 1#8, flagsFrom_flagsNZ _ _, hz, toNat_pc_succ hp, rfl, hr, rfl,
    imageKept_of_image_eq rfl⟩

end Sys2Proof.Machine

namespace Sys2Proof.Machine

/-! ## The statement about the exceptions, settled

The complete fault behaviour of a step (spec/60_exceptions.md G3 and G4), settled from the lemmas above. -/

/-- Settles O24: a row of the table that applies is raised with `PC` where the table of G4 puts it, and where none does, each of
the four instructions completes, ending the step `Running` or, for `HALT`, `Halted`, with the record as it was. -/
theorem faultPriorityTable : Obligations.FaultPriorityTable := by
  intro s hr
  have hrunning : s.runState ≠ .faulted := by simp [hr]
  rcases step_cases_faultOfStep hr with ⟨c, hf, hs⟩ | ⟨hf, ⟨-, hs⟩ | ⟨-, hs⟩ | ⟨-, hs⟩ | ⟨-, hs⟩⟩ <;>
    refine ⟨_, hs, ?_⟩ <;> rw [hf]
  · rfl
  · exact ⟨hrunning, rfl⟩
  · exact ⟨hrunning, rfl⟩
  · exact ⟨hrunning, rfl⟩
  · exact ⟨RunState.noConfusion, rfl⟩

end Sys2Proof.Machine

namespace Sys2Proof.Machine

/-! ## Every step answers

Every meaning answers a next state, and so does every step (log entries 4 and 7). -/

theorem exec_answers_next (i : Instr) (s : State) : ∃ t, exec i s = .next t := by
  cases i with
  | ldaImm imm8 =>
    rcases execLdaImm_cases imm8 s with ⟨-, h⟩ | ⟨-, h⟩
    · exact ⟨_, h⟩
    · exact ⟨_, h⟩
  | tax => exact ⟨_, exec_tax s⟩
  | inx => exact ⟨_, exec_inx s⟩
  | halt => exact ⟨_, exec_halt s⟩

theorem step_answers_next (s : State) : ∃ t, step s = .next t := by
  by_cases hr : s.runState = .running
  · cases hf : fetchInstr s with
    | done i t => exact step_of_done hr hf ▸ exec_answers_next i t
    | raised t => exact ⟨t, step_of_raised hr hf⟩
  · exact ⟨s, step_quiet hr⟩

/-! ## The step at the image's end, at the counter's limit and at `HALT` -/

/-- A step past the image raises at the opcode's fetch (R70). -/
theorem step_pastImage {s : State} (hr : s.runState = .running) (h : s.image.progLen ≤ s.pc.toNat) :
    step s = .next (raise (.outOfRangeFetch s.pc .opcode) s) :=
  step_of_raised hr (by simp [fetchInstr, fetch_outOfRange .opcode h])

/-- At the counter's limit the opcode's advance raises, whatever the opcode (R71, R97). -/
theorem step_atLimit {s : State} (hr : s.runState = .running) (hp : s.pc = 0xFFFF#16)
    (hl : s.pc.toNat < s.image.progLen) : step s = .next (raise (.pcOverflow .opcode) s) :=
  step_of_raised hr (by simp [fetchInstr, fetch_inRange .opcode hl, advance_atLimit .opcode hp])

/-- A step that dispatches `HALT` completes it, `PC` one past its single byte (R86). -/
theorem step_halt {s : State} (h : s.atOpcode 0x00#8) :
    step s = .next ((s.setPc (s.pc + 1#16)).setRunState .halted) :=
  (step_eq_exec_of_oneByte h decode_halt).trans (exec_halt _)

/-- R97's table names `PcOverflow` only where the image holds an index at the counter's limit. -/
theorem progLen_of_faultOfStep_pcOverflow {s : State} {k : Access} (h : faultOfStep s = some (.pcOverflow k)) :
    0xFFFF < s.image.progLen := by
  simp only [faultOfStep] at h
  split_ifs at h <;> cases h
  · omega
  · next hend hlim =>
    obtain ⟨hop, hpc⟩ := hlim
    have hlt : ¬s.pc.toNat + 1 ≥ s.image.progLen := fun hge => hend ⟨hop, hge⟩
    omega

/-! ## A run within its bound

A step either ends the run or advances `PC`, and it goes on only below `PROG_LEN` and below the counter's limit. So at most
`min(PROG_LEN, 65535)` steps go on (spec/40_engine.md R80). -/

/-- A step of a `Running` block ends the run, or it goes on from an index in range and below the counter's limit to a larger
one. -/
theorem step_ends_or_advances {s t : State} (hr : s.runState = .running) (h : step s = .next t) :
    t.runEnded ∨ (t.runState = .running ∧ s.pc.toNat < min s.image.progLen 65535 ∧ s.pc.toNat < t.pc.toNat) := by
  have hgoes : ∀ op, s.atOpcode op → t.runState = .running →
      s.pc.toNat < min s.image.progLen 65535 ∧ s.pc.toNat < t.pc.toNat := by
    rintro op ⟨-, hl, -, hp⟩ hrun
    have hlim := mt (toNat_eq_limit_iff s.pc).mp hp
    have hlt := s.pc.isLt
    rcases step_pc hr h with ⟨hf, -⟩ | hpc
    · cases hrun.symm.trans hf
    · rw [opcodeLength] at hpc
      omega
  rcases step_cases_faultOfStep hr with ⟨c, -, hs⟩ | ⟨-, ⟨hop, hs⟩ | ⟨hop, hs⟩ | ⟨hop, hs⟩ | ⟨-, hs⟩⟩ <;>
    cases hs.symm.trans h
  · exact .inl (.inr rfl)
  · exact .inr ⟨hr, hgoes _ hop hr⟩
  · exact .inr ⟨hr, hgoes _ hop hr⟩
  · exact .inr ⟨hr, hgoes _ hop hr⟩
  · exact .inl (.inl rfl)

theorem runState_ne_running_of_runEnded {s : State} (h : s.runEnded) : s.runState ≠ .running := by
  rcases h with h | h <;> simp [h]

/-- A run of one step more is that step and the run from where it ends, on any machine. -/
theorem run_succ_of_next {M : Host.Core} {s t : M.State} (h : M.step s = .next t) (k : Nat) :
    M.run (k + 1) s = M.run k t := by
  rw [Host.Core.run, h]

theorem run_succ_of_step {s t : State} (h : step s = .next t) (k : Nat) :
    Host.Core.run core (k + 1) s = Host.Core.run core k t :=
  run_succ_of_next (M := core) h k

/-- Outside `Running` any number of steps changes nothing (log entry 4). -/
theorem run_quiet {s : State} (h : s.runState ≠ .running) (k : Nat) : Host.Core.run core k s = .next s := by
  induction k with
  | zero => rfl
  | succ k ih => exact (run_succ_of_step (step_quiet h) k).trans ih

/-- A run that its first step ends stays ended. -/
theorem run_ends_of_step {s t : State} (h : step s = .next t) (hend : t.runEnded) (k : Nat) :
    ∃ u, Host.Core.run core (k + 1) s = .next u ∧ u.runEnded :=
  ⟨t, (run_succ_of_step h k).trans (run_quiet (runState_ne_running_of_runEnded hend) k), hend⟩

/-- With at most `k` indices from `PC` on that a step can go on from, a run ends within `k + 1` steps. -/
theorem run_ends {k : Nat} {s : State} (hr : s.runState = .running) (hk : min s.image.progLen 65535 ≤ s.pc.toNat + k) :
    ∃ t, Host.Core.run core (k + 1) s = .next t ∧ t.runEnded := by
  induction k generalizing s with
  | zero =>
    obtain ⟨t, hs⟩ := step_answers_next s
    rcases step_ends_or_advances hr hs with hend | ⟨-, hlt, -⟩
    · exact run_ends_of_step hs hend 0
    · omega
  | succ k ih =>
    obtain ⟨t, hs⟩ := step_answers_next s
    rcases step_ends_or_advances hr hs with hend | ⟨hrun, -, hpc⟩
    · exact run_ends_of_step hs hend (k + 1)
    · rw [run_succ_of_step hs]
      exact ih hrun (by rw [step_image hs]; omega)

/-! ## The host's interactions

What each interaction leaves (spec/60_exceptions.md R110, spec/10_state.md R36), and which of them commute. -/

/-- An interaction is refused, or it has its effect. -/
theorem hostMove_cases (m : HostMove) (s : State) : hostMove m s = s ∨ hostMove m s = m.effect s := by
  unfold hostMove
  split_ifs
  · exact .inr rfl
  · exact .inl rfl

theorem hostMove_read (s : State) : hostMove .read s = s := (hostMove_cases .read s).elim id id

theorem hostMove_cancel (s : State) : hostMove .cancel s = s := (hostMove_cases .cancel s).elim id id

/-- A run request is refused while `Running`, and starts a run in every other engine state (R67). -/
theorem runReq_cases (s : State) : runReq s = s ∨ runReq s = startRun s := by
  by_cases hr : s.runState = .running
  · exact .inl (runReq_running hr)
  · exact .inr (runReq_quiet hr)

theorem hostMove_runReq_quiet {s : State} (h : s.runState ≠ .running) : hostMove .runReq s = startRun s :=
  (hostMove_quiet h HostMove.noConfusion).trans (runReq_quiet h)

/-- The registers after a write: each enabled one holds the data byte, and everything else is kept. -/
theorem hostWrite_eq (wrA wrX wrP : Bool) (wdata : Byte) (s : State) :
    hostWrite wrA wrX wrP wdata s =
      { s with
        a := if wrA then wdata else s.a
        x := if wrX then wdata else s.x
        p := if wrP then wdata else s.p } := by
  unfold hostWrite
  split_ifs <;> rfl

@[simp] theorem hostWrite_runState (wrA wrX wrP : Bool) (wdata : Byte) (s : State) :
    (hostWrite wrA wrX wrP wdata s).runState = s.runState := by
  rw [hostWrite_eq]

theorem hostWrite_setPc (wrA wrX wrP : Bool) (wdata : Byte) (s : State) (i : Index) :
    hostWrite wrA wrX wrP wdata (s.setPc i) = (hostWrite wrA wrX wrP wdata s).setPc i := by
  simp only [hostWrite_eq]
  rfl

theorem hostWrite_setImage (wrA wrX wrP : Bool) (wdata : Byte) (s : State) (m : Memory) :
    hostWrite wrA wrX wrP wdata (s.setImage m) = (hostWrite wrA wrX wrP wdata s).setImage m := by
  simp only [hostWrite_eq]
  rfl

/-- Writes of different registers commute: no register takes both data bytes. -/
theorem hostWrite_comm {wa wx wp va vx vp : Bool} (ha : ¬(wa = true ∧ va = true)) (hx : ¬(wx = true ∧ vx = true))
    (hp : ¬(wp = true ∧ vp = true)) (d e : Byte) (s : State) :
    hostWrite wa wx wp d (hostWrite va vx vp e s) = hostWrite va vx vp e (hostWrite wa wx wp d s) := by
  simp only [hostWrite_eq]
  exact State.ext_fields (ite_ite_comm _ _ _ _ (not_and.mp ha)) (ite_ite_comm _ _ _ _ (not_and.mp hx))
    (ite_ite_comm _ _ _ _ (not_and.mp hp)) rfl rfl rfl rfl

/-- Two interactions that leave the engine state alone are taken or refused alike in either order, so they commute when their
effects do. -/
theorem hostMove_comm {m n : HostMove} {s : State} (hm : (m.effect s).runState = s.runState)
    (hn : (n.effect s).runState = s.runState) (h : m.effect (n.effect s) = n.effect (m.effect s)) :
    hostMove m (hostMove n s) = hostMove n (hostMove m s) := by
  by_cases ham : m.allowed s.runState = true <;> by_cases han : n.allowed s.runState = true <;>
    simp [hostMove, ham, han, hm, hn, h]

/-! ## The invariant along the moves of block and host

It holds at reset, and every effect of the host keeps it as every step does. -/

theorem reset_inv : State.reset.Inv := ⟨State.reset_image_wf, rfl, by decide⟩

theorem reset_pcInv : State.reset.PcInv := ⟨rfl, fun _ => rfl⟩

/-- The start of a run meets the invariant on every canonical image: its record is clear and the engine is `Running`. -/
theorem startRun_inv {s : State} (himg : s.image.wf = true) : (startRun s).Inv :=
  ⟨himg, rfl, by simp [FaultRecord.clear]⟩

theorem startRun_pcInv (s : State) : (startRun s).PcInv := ⟨rfl, RunState.noConfusion⟩

/-- `rst` leaves the reset values on the image there was. -/
theorem rstEffect_inv {s : State} (himg : s.image.wf = true) : (rstEffect s).Inv :=
  have ⟨_, hwf, hiff⟩ := reset_inv
  ⟨himg, hwf, hiff⟩

theorem rstEffect_pcInv (s : State) : (rstEffect s).PcInv := reset_pcInv

/-- Every effect of the host keeps the invariant: an image it supplies is canonical, and it writes the record and the engine
state only together, to their values at reset or at the start of a run. -/
theorem HostMove.effect_inv (m : HostMove) {s : State} (hi : s.Inv) : (m.effect s).Inv := by
  have ⟨himg, hwf, hiff⟩ := hi
  cases m with
  | read => exact hi
  | write wrA wrX wrP wdata =>
    rw [HostMove.effect, hostWrite_eq]
    exact hi
  | writePc index => exact hi
  | supplyImage bytes => exact ⟨Memory.ofBytes_wf bytes, hwf, hiff⟩
  | runReq =>
    rw [HostMove.effect]
    rcases runReq_cases s with h | h <;> rw [h]
    · exact hi
    · exact startRun_inv himg
  | rst => exact rstEffect_inv himg
  | cancel => exact hi

/-- Every effect of the host but its write of `PC` keeps `PC` where the block left it. -/
theorem HostMove.effect_pcInv {m : HostMove} (hm : m.isPcWrite = false) {s : State} (hpc : s.PcInv) :
    (m.effect s).PcInv := by
  cases m with
  | read => exact hpc
  | write wrA wrX wrP wdata =>
    rw [HostMove.effect, hostWrite_eq]
    exact hpc
  | writePc index => cases hm
  | supplyImage bytes => exact hpc
  | runReq =>
    rw [HostMove.effect]
    rcases runReq_cases s with h | h <;> rw [h]
    · exact hpc
    · exact startRun_pcInv s
  | rst => exact rstEffect_pcInv s
  | cancel => exact hpc

theorem Move.keeps_inv {ok : HostMove → Bool} {s t : State} (h : Move ok s t) (hi : s.Inv) : t.Inv := by
  cases h with
  | block _ _ hr hs => exact (step_running_inv hr hi hs).1
  | host m _ _ _ => exact m.effect_inv hi

/-- A step puts `PC` where the block leaves it, and the host leaves it there unless it writes it. -/
theorem Move.keeps_pcInv {s t : State} (h : Move (fun m => !m.isPcWrite) s t) (hi : s.Inv) (hpc : s.PcInv) :
    t.PcInv := by
  cases h with
  | block _ _ hr hs => exact (step_running_inv hr hi hs).2
  | host m _ hok _ => exact HostMove.effect_pcInv (by simpa using hok) hpc

/-- What holds at reset and is kept by every move holds of every reachable state. -/
theorem Reachable.of_kept {ok : HostMove → Bool} {P : State → Prop} (hreset : P State.reset)
    (hkept : ∀ s t, Move ok s t → P s → P t) {s : State} (h : Reachable ok s) : P s := by
  induction h with
  | reset => exact hreset
  | move s t _ hmove ih => exact hkept s t hmove ih

/-! ## What the descriptor foretells -/

/-- The columns of a descriptor said of a step from one state to another (R66): how it ends, what it leaves alone, and where
the flags come from. -/
def Foretells (d : Descriptor) (s t : State) : Prop :=
  (d.endsRun = .halted ↔ t.runState = .halted) ∧
    (d.endsRun = .faulted → t.runState = .faulted ∧ t.fault.code = .unknownOpcode) ∧
    (∀ r : Reg, d.destination ≠ some r → t.reg r = s.reg r) ∧
    (d.flagSource = none → t.p = s.p) ∧
    (∀ r : Reg, d.flagSource = some r → t.runState ≠ .faulted → FlagsFrom s.p t.p (t.reg r))

/-- A data instruction's row foretells a step that does not halt, writes no register but the row's one and, unless it faults,
takes the flags from that register. -/
theorem foretells_of_data {d : Descriptor} {r : Reg} {s t : State} (hrun : d.endsRun = .no)
    (hdest : d.destination = some r) (hflag : d.flagSource = some r) (hend : t.runState ≠ .halted)
    (hkept : ∀ q, q ≠ r → t.reg q = s.reg q) (hp : t.runState ≠ .faulted → FlagsFrom s.p t.p (t.reg r)) :
    Foretells d s t := by
  refine ⟨by simp [hrun, hend], by simp [hrun], fun q hq => hkept q ?_, by simp [hflag], fun q hq hf => ?_⟩
  · rintro rfl
    exact hq hdest
  · cases hflag.symm.trans hq
    exact hp hf

theorem reg_kept_of_x {s t : State} (hx : t.x = s.x) (q : Reg) (hq : q ≠ .a) : t.reg q = s.reg q := by
  cases q with
  | a => exact absurd rfl hq
  | x => exact hx

theorem reg_kept_of_a {s t : State} (ha : t.a = s.a) (q : Reg) (hq : q ≠ .x) : t.reg q = s.reg q := by
  cases q with
  | a => exact ha
  | x => exact absurd rfl hq

theorem reg_kept {s t : State} (ha : t.a = s.a) (hx : t.x = s.x) (q : Reg) : t.reg q = s.reg q := by
  cases q with
  | a => exact ha
  | x => exact hx

theorem foretells_ldaImm {s t : State} (h : s.atOpcode 0xA9#8) (hs : step s = .next t) :
    Foretells (describe 0xA9#8) s t := by
  have ⟨hr, _, _, _⟩ := h
  rcases step_cases_ldaImm h with ⟨-, ht⟩ | ⟨-, -, ht⟩ | ⟨-, -, ht⟩ <;> cases ht.symm.trans hs
  · exact foretells_of_data rfl rfl rfl RunState.noConfusion (reg_kept_of_x rfl) (absurd rfl)
  · exact foretells_of_data rfl rfl rfl RunState.noConfusion (reg_kept_of_x rfl) (absurd rfl)
  · exact foretells_of_data rfl rfl rfl (by simp [hr]) (reg_kept_of_x rfl) fun _ => flagsFrom_flagsNZ _ _

theorem foretells_tax {s t : State} (h : s.atOpcode 0xAA#8) (hs : step s = .next t) :
    Foretells (describe 0xAA#8) s t := by
  have ⟨hr, _, _, _⟩ := h
  cases (step_tax h).symm.trans hs
  exact foretells_of_data rfl rfl rfl (by simp [hr]) (reg_kept_of_a rfl) fun _ => flagsFrom_flagsNZ _ _

theorem foretells_inx {s t : State} (h : s.atOpcode 0xE8#8) (hs : step s = .next t) :
    Foretells (describe 0xE8#8) s t := by
  have ⟨hr, _, _, _⟩ := h
  cases (step_inx h).symm.trans hs
  exact foretells_of_data rfl rfl rfl (by simp [hr]) (reg_kept_of_a rfl) fun _ => flagsFrom_flagsNZ _ _

theorem foretells_halt {s t : State} (h : s.atOpcode 0x00#8) (hs : step s = .next t) :
    Foretells (describe 0x00#8) s t := by
  cases (step_halt h).symm.trans hs
  exact ⟨iff_of_true rfl rfl, by simp, fun r _ => reg_kept rfl rfl r, fun _ => rfl, by simp⟩

theorem foretells_undefined {s t : State} {op : Byte} (h : s.atOpcode op)
    (hd : describe op = ⟨.undefined, 0, none, none, .faulted⟩) (hs : step s = .next t) : Foretells (describe op) s t := by
  cases (step_undefined h (by rw [hd])).symm.trans hs
  rw [hd]
  exact ⟨by simp, fun _ => ⟨rfl, rfl⟩, fun r _ => reg_kept rfl rfl r, fun _ => rfl, by simp⟩

/-! ## The other statements, settled

The statements about runs, the host, single steps and assembler text, settled from the lemmas above. -/

/-- Settles O31: reset meets the invariant and every move keeps it. -/
theorem reachableStatesMeetInv : Obligations.ReachableStatesMeetInv := by
  refine ⟨fun s => Reachable.of_kept reset_inv fun _ _ => Move.keeps_inv, fun s => ?_⟩
  refine Reachable.of_kept (P := fun s => s.Inv ∧ s.PcInv) ⟨reset_inv, reset_pcInv⟩ ?_
  rintro s t hmove ⟨hi, hpc⟩
  exact ⟨hmove.keeps_inv hi, hmove.keeps_pcInv hi hpc⟩

/-- Settles O42: a run starts at index 0, so at most `min(PROG_LEN, 65535)` of its steps go on. -/
theorem everyRunEndsWithinBound : Obligations.EveryRunEndsWithinBound := by
  intro s hr
  have hbound : min (s.image.progLen + 1) 65536 = min s.image.progLen 65535 + 1 := by omega
  rw [runReq_quiet hr, hbound]
  exact run_ends (s := startRun s) rfl (Nat.le_add_left _ _)

/-- Settles O16: `HALT` has no operand to fault, and at the counter's limit its own advance faults. -/
theorem haltStep : Obligations.HaltStep := by
  refine ⟨fun s h => ?_, fun s hr hp hl _ => ⟨_, step_atLimit hr hp hl, rfl, rfl, rfl⟩⟩
  have ⟨_, _, _, hp⟩ := h
  exact ⟨_, step_halt h, rfl, toNat_pc_succ hp, rfl, rfl, rfl, rfl, imageKept_of_image_eq rfl⟩

/-- Settles O17: the decode raises after the opcode's advance, and at the counter's limit that advance raises first. -/
theorem undefinedOpcodeStep : Obligations.UndefinedOpcodeStep := by
  refine ⟨fun s op h0 h1 h2 h3 h => ?_, fun s hr hp hl _ => ⟨_, step_atLimit hr hp hl, rfl, rfl, rfl⟩⟩
  have ⟨_, _, _, hp⟩ := h
  have hu : (describe op).cls = .undefined := (describe_cls_eq_undefined_iff op).mpr ⟨h1, h2, h3, h0⟩
  exact ⟨_, step_undefined h hu, rfl, rfl, toNat_pc_succ hp, rfl, rfl, rfl, imageKept_of_image_eq rfl⟩

/-- Settles O25: a step that faults raised what R97's table names, which is `PcOverflow` on long images only. -/
theorem pcOverflowNeedsLongImage : Obligations.PcOverflowNeedsLongImage := by
  intro s t hr h hend hcode
  rcases step_cases_faultOfStep hr with ⟨c, hf, hs⟩ | ⟨-, ⟨-, hs⟩ | ⟨-, hs⟩ | ⟨-, hs⟩ | ⟨-, hs⟩⟩ <;>
    cases hs.symm.trans h
  · cases c with
    | unknownOpcode op addr => cases hcode
    | outOfRangeFetch addr k => cases hcode
    | pcOverflow k => exact progLen_of_faultOfStep_pcOverflow hf
  · cases hr.symm.trans hend
  · cases hr.symm.trans hend
  · cases hr.symm.trans hend
  · cases hend

/-- Settles O27: no arm of `exec` and no sub-step of the engine ends in anything but a state. -/
theorem everyStepAnswersNext : Obligations.EveryStepAnswersNext := ⟨step_answers_next, exec_answers_next⟩

/-- Settles O30: a refused interaction changes nothing, and a taken one has an effect that keeps the invariant. -/
theorem hostMovesKeepInv : Obligations.HostMovesKeepInv := by
  intro m s hi
  rcases hostMove_cases m s with h | h <;> rw [h]
  · exact ⟨hi, fun _ => id⟩
  · exact ⟨m.effect_inv hi, fun hm => HostMove.effect_pcInv hm⟩

/-- Settles O41: row by row of the opcode table. -/
theorem descriptorForetellsStep : Obligations.DescriptorForetellsStep := by
  intro s t op h hs
  rcases describe_cases op with rfl | rfl | rfl | rfl | ⟨-, -, -, -, hd⟩
  · exact foretells_ldaImm h hs
  · exact foretells_tax h hs
  · exact foretells_inx h hs
  · exact foretells_halt h hs
  · exact foretells_undefined h hd hs

/-- Settles O47: none of these interactions changes the engine state, and they write different fields. -/
theorem setupOrderDoesNotMatter : Obligations.SetupOrderDoesNotMatter := by
  intro s wa wx wp va vx vp d e i bytes
  have hwrite := hostWrite_runState wa wx wp d s
  refine ⟨fun ha hx hp => ?_, ?_, ?_, ?_⟩
  · exact hostMove_comm hwrite (hostWrite_runState va vx vp e s) (hostWrite_comm ha hx hp d e s)
  · exact hostMove_comm hwrite rfl (hostWrite_setImage wa wx wp d s (Memory.ofBytes bytes))
  · exact hostMove_comm rfl hwrite (hostWrite_setPc wa wx wp d s i).symm
  · exact hostMove_comm rfl rfl rfl

/-- Settles O6: the length is read off the opcode's row. -/
theorem opcodeFixesLength : Obligations.OpcodeFixesLength := by
  refine fun op => ⟨rfl, ?_⟩
  rcases describe_cases op with rfl | rfl | rfl | rfl | ⟨h1, -, -, -, hd⟩
  case inr.inr.inr.inr => simp [opcodeLength, hd, h1]
  all_goals rfl

/-- Settles O7: an image is its lines' bytes one after the other, and the first line's encoding decodes first. -/
theorem assemblyPlacesBytesInOrder : Obligations.AssemblyPlacesBytesInOrder :=
  ⟨fun i _ _ ls => decode_encode_append i (assemble ls), fun _ => rfl, fun _ _ _ => rfl, fun _ _ _ _ _ => rfl⟩

/-- Settles O12: `HALT` has no check to fail, and writes the engine state only. -/
theorem haltCompletes : Obligations.HaltCompletes :=
  fun s => ⟨_, exec_halt s, rfl, rfl, rfl, rfl, rfl, rfl, imageKept_of_image_eq rfl⟩

/-- Settles O20: a raise is its two updates, and each cause has the listed record. -/
theorem raiseWritesRecordOnly : Obligations.RaiseWritesRecordOnly :=
  ⟨fun _ _ => rfl, fun _ _ => rfl, fun _ _ => rfl, fun _ => rfl⟩

/-- Settles O22: the two outcomes of an advance. -/
theorem advanceNeverWraps : Obligations.AdvanceNeverWraps := by
  refine fun k s => ⟨fun h => ?_, fun h => advance_atLimit k ((toNat_eq_limit_iff s.pc).mp h)⟩
  have hp : s.pc ≠ 0xFFFF#16 := mt (toNat_eq_limit_iff s.pc).mpr h.ne
  exact ⟨_, advance_belowLimit k hp, toNat_pc_succ hp, rfl⟩

/-- Settles O23: the opcode's fetch raises before anything else happens. -/
theorem opcodeFetchPastImageFaults : Obligations.OpcodeFetchPastImageFaults := fun _ => step_pastImage

/-- Settles O28: both invariants of the reset values. -/
theorem invHoldsAtReset : Obligations.InvHoldsAtReset := ⟨reset_inv, reset_pcInv⟩

/-- Settles O39: the engine takes no step outside `Running`. -/
theorem quietStatesDoNotMove : Obligations.QuietStatesDoNotMove := fun _ => step_quiet

/-- Settles O45: outside `Running` the request starts a run, and while `Running` it is refused as every interaction is. -/
theorem runRequestStartsARun : Obligations.RunRequestStartsARun :=
  ⟨fun _ => hostMove_runReq_quiet, fun _ => hostMove_running .runReq⟩

/-- Settles O46: while `Running` nothing is taken; otherwise each row has its effect, and the start of a run forgets `PC`. -/
theorem hostMovesByEngineState : Obligations.HostMovesByEngineState := by
  refine ⟨fun m _ => hostMove_running m, fun s hr => ⟨hostMove_read s, hostMove_cancel s, fun wa wx wp d => ?_, fun i => ?_,
    fun _ => hostMove_quiet hr HostMove.noConfusion, hostMove_quiet hr HostMove.noConfusion⟩⟩
  · exact (hostMove_quiet hr HostMove.noConfusion).trans (hostWrite_eq wa wx wp d s)
  · have hw : hostMove (.writePc i) s = s.setPc i := hostMove_quiet hr HostMove.noConfusion
    have hquiet : (s.setPc i).runState ≠ .running := hr
    refine ⟨hw, ?_⟩
    calc hostMove .runReq (hostMove (.writePc i) s)
      _ = hostMove .runReq (s.setPc i) := by rw [hw]
      _ = startRun (s.setPc i) := hostMove_runReq_quiet hquiet
      _ = startRun s := rfl
      _ = hostMove .runReq s := (hostMove_runReq_quiet hr).symm

end Sys2Proof.Machine
